-- ==== Sys2Proof/Config.lean ====
section
/-! DEFINITION. What an implementation fixes and the spec leaves OPEN (00_scope.md R5): two constants
without a body, so that every claim holds for each value of them. -/

namespace Sys2Proof

/-- Which offset a decode error reports (60_exceptions.md R116): the offset of the failing
instruction's opcode byte, or the offset at which the failing read began. -/
inductive ErrOffsetMode where
  | instrStart
  | failPos
deriving DecidableEq, Repr, Inhabited

/-- `ERR_OFFSET_MODE`, OPEN in R5 (92_eei_decisions.md D9). Log entry 4. -/
opaque Config.errOffsetMode : ErrOffsetMode

/-- `N_MAX`, the largest buffer the block accepts, OPEN in R5 (92_eei_decisions.md D13). Log entry 5. -/
opaque Config.nMax : Nat

end Sys2Proof
end

