-- ==== Sys2Proof/Word.lean ====
section
/-! DEFINITION. The machine's words and the closed vocabularies its encodings are made of
(00_scope.md R6, R8; 10_state.md R17, R20). -/

namespace Sys2Proof

/-- An element of the input buffer: 8 bits (R5 "byte width"). -/
abbrev Byte := BitVec 8

/-- A word read, displacement word, direct address or word immediate: 16 bits (R5 "word width"). -/
abbrev Word := BitVec 16

/-- A 3-bit register, `reg` or `rm` field (R5 "register field width", R8). -/
abbrev Code3 := BitVec 3

/-- The width bit `w`: `w = 0` byte, `w = 1` word (R9, R60). -/
inductive Width where
  | byte
  | word
deriving DecidableEq, Repr

end Sys2Proof
end

