-- ==== Sys2Proof/Syntax.lean ====
section
/-! DEFINITION. The instructions, one constructor per row of spec/opcode_table.json, each with every
field its encoding holds (30_encoding.md R45 to R54). The direction bit is the constructor
(41_matcher.md R84); no field of an encoding is dropped, the ignored one (R59) included. -/

namespace Sys2Proof

/-- What the `mod` and `rm` fields and the bytes after a ModRM byte spell (30_encoding.md R51,
40_resolver.md R65 to R69). -/
inductive RmMode where
  /-- `mod = 11`: the register with code `rm` (R65). -/
  | reg (rm : Code3)
  /-- `mod = 00`, `rm` not `110`: a base expression alone (R66). -/
  | base (rm : Code3)
  /-- `mod = 00`, `rm = 110`: a 16-bit direct address (R67). -/
  | direct (a : Word)
  /-- `mod = 01`: a base expression and a displacement byte (R68). -/
  | disp8 (rm : Code3) (b : Byte)
  /-- `mod = 10`: a base expression and a displacement word (R69). -/
  | disp16 (rm : Code3) (v : Word)
deriving DecidableEq, Repr

/-- The instruction set. -/
inductive Instr where
  /-- `MOV r/m, reg` (`1000100w`, R89). -/
  | movRmReg (w : Width) (reg : Code3) (rm : RmMode)
  /-- `MOV reg, r/m` (`1000101w`, R90). -/
  | movRegRm (w : Width) (reg : Code3) (rm : RmMode)
  /-- `MOV reg, imm` (`1011wrrr`, R91). -/
  | movRegImm (w : Width) (r : Code3) (v : Word)
  /-- `MOV r/m, imm` (`1100011w`, R92, R93); `ign` is the ModRM `reg` field, read and ignored (R59). -/
  | movRmImm (w : Width) (ign : Code3) (rm : RmMode) (v : Word)
  /-- `MOV acc, [addr]` (`1010000w`, R94). -/
  | movAccMem (w : Width) (a : Word)
  /-- `MOV [addr], acc` (`1010001w`, R95). -/
  | movMemAcc (w : Width) (a : Word)
deriving DecidableEq, Repr

end Sys2Proof
end

