-- ==== Sys2Proof/WellFormed.lean ====
section
/-! DEFINITION. Which terms of `Instr` an encoding can spell. -/

namespace Sys2Proof

/-- `mod = 00` with `rm = 110` is the direct address, never a base expression alone (R66, R67). -/
def RmMode.wf : RmMode → Bool
  | .reg _ => true
  | .base rm => rm != 0b110#3
  | .direct _ => true
  | .disp8 _ _ => true
  | .disp16 _ _ => true

/-- A byte immediate is a zero-extended byte (10_state.md R20: for `w = 0`, `v <= 255`). -/
def immFits (w : Width) (v : Word) : Bool :=
  match w with
  | .byte => decide (v.toNat ≤ 255)
  | .word => true

/-- The well-formed instructions: those with an encoding. -/
def Instr.wf : Instr → Bool
  | .movRmReg _ _ rm => rm.wf
  | .movRegRm _ _ rm => rm.wf
  | .movRegImm w _ v => immFits w v
  | .movRmImm w _ rm v => rm.wf && immFits w v
  | .movAccMem _ _ => true
  | .movMemAcc _ _ => true

end Sys2Proof
end

