-- ==== Sys2Proof/Decode.lean ====
section
/-! DEFINITION. Bit fields, byte order, the opcode matcher (41_matcher.md), the decoder over any list
of bytes, and after it the encoder written from the same tables (30_encoding.md). -/

namespace Sys2Proof

/-! ### Extension, byte order, bit fields (R6, R7, R34) -/

/-- `zext_16` (R7). -/
def zext16 (b : Byte) : Word := b.setWidth 16

/-- `sext_16` (R7): bit 7 repeated eight times, then the byte. -/
def sext16 (b : Byte) : Word := b.signExtend 16

/-- The 16-bit value whose first (lower-offset) byte is `lo` (R34): `hi ‖ lo`. -/
def joinLE (lo hi : Byte) : Word := hi ++ lo

/-- The byte at the lower offset of a 16-bit field (R34). -/
def lowByte (v : Word) : Byte := v.extractLsb' 0 8

/-- The byte at the higher offset of a 16-bit field (R34). -/
def highByte (v : Word) : Byte := v.extractLsb' 8 8

/-- The width bit as a bit of an opcode byte (R9, R60). -/
def Width.bit : Width → BitVec 1
  | .byte => 0#1
  | .word => 1#1

/-- The width a bit names (R9, R60). -/
def Width.ofBit (b : Bool) : Width := if b then .word else .byte

/-- `mod = M[7:6]` (R49). -/
def modField (m : Byte) : BitVec 2 := m.extractLsb' 6 2

/-- `reg = M[5:3]` (R49). -/
def regField (m : Byte) : Code3 := m.extractLsb' 3 3

/-- `rm = M[2:0]` (R49). -/
def rmField (m : Byte) : Code3 := m.extractLsb' 0 3

/-- `w = op[0]`, for the classes `IMM_MEM`, `RM_REG`, `ACC_MEM` (R80, R81, R82). -/
def opWidth (op : Byte) : Width := .ofBit (op.getLsbD 0)

/-- `d = op[1]`, for the classes `RM_REG`, `ACC_MEM` (R81, R82). -/
def opDir (op : Byte) : Bool := op.getLsbD 1

/-- `w = op[3]` of an `IMM_REG` opcode byte (R79). -/
def immRegWidth (op : Byte) : Width := .ofBit (op.getLsbD 3)

/-- `r = op[2:0]` of an `IMM_REG` opcode byte (R79). -/
def immRegCode (op : Byte) : Code3 := op.extractLsb' 0 3

/-- `dlen(mod, rm)`: the displacement or address bytes after a ModRM byte (R51). -/
def dlen (mod : BitVec 2) (rm : Code3) : Nat :=
  if mod = 0b11#2 then 0
  else if mod = 0b00#2 then (if rm = 0b110#3 then 2 else 0)
  else if mod = 0b01#2 then 1
  else 2

/-! ### The opcode matcher (41_matcher.md R75 to R78) -/

/-- The matcher's verdicts (R75). -/
inductive OpClass where
  | immMem
  | immReg
  | rmReg
  | accMem
  | none
deriving DecidableEq, Repr

/-- One entry of the pattern list: an opcode byte matches when its masked bits equal `value` (R76). -/
structure Pattern where
  cls : OpClass
  mask : Byte
  value : Byte
deriving DecidableEq, Repr

/-- The four patterns in priority order (R76; widths by 90_conflicts.md C1, C2). The fifth entry,
`NONE`, matches any byte: it is `firstMatch` of the empty list. -/
def patterns : List Pattern :=
  [⟨.immMem, 0xFE#8, 0xC6#8⟩, ⟨.immReg, 0xF0#8, 0xB0#8⟩,
   ⟨.rmReg, 0xFC#8, 0x88#8⟩, ⟨.accMem, 0xFC#8, 0xA0#8⟩]

/-- Whether an opcode byte matches an entry (R76). -/
def Pattern.hits (p : Pattern) (op : Byte) : Bool := op &&& p.mask == p.value

/-- First match wins; no match is `NONE` (R77, R78). -/
def firstMatch : List Pattern → Byte → OpClass
  | [], _ => .none
  | p :: ps, op => if p.hits op then p.cls else firstMatch ps op

/-- `Classify(op)` (R77). -/
def classify (op : Byte) : OpClass := firstMatch patterns op

/-! ### Decoding a list of bytes -/

/-- What the decoder makes of a list of bytes. A rejection has a name: the two decode errors of
60_exceptions.md R113, and the list with no opcode byte at all. -/
inductive Decoded where
  /-- An instruction, and the bytes after it. -/
  | instr (i : Instr) (rest : List Byte)
  /-- The opcode byte `op` is matched, and the field that begins `used` bytes into the instruction
  is cut short (R114). -/
  | truncated (op : Byte) (used : Nat)
  /-- No pattern matches the opcode byte (R115). -/
  | unsupported (op : Byte)
  /-- There is no byte. -/
  | noByte
deriving DecidableEq, Repr

/-- The next byte (R30). -/
def takeU8 : List Byte → Option (Byte × List Byte)
  | [] => none
  | b :: bs => some (b, bs)

/-- The next two bytes, low byte first; one byte alone is not taken (R31). -/
def takeU16 : List Byte → Option (Word × List Byte)
  | lo :: hi :: bs => some (joinLE lo hi, bs)
  | _ => none

/-- The displacement or direct address that `mod` and `rm` ask for (R51, R52, R63). -/
def takeRmMode (mod : BitVec 2) (rm : Code3) (bs : List Byte) : Option (RmMode × List Byte) :=
  if mod = 0b11#2 then some (.reg rm, bs)
  else if mod = 0b00#2 then
    if rm = 0b110#3 then (takeU16 bs).map fun r => (.direct r.1, r.2)
    else some (.base rm, bs)
  else if mod = 0b01#2 then (takeU8 bs).map fun r => (.disp8 rm r.1, r.2)
  else (takeU16 bs).map fun r => (.disp16 rm r.1, r.2)

/-- The immediate: 1 byte zero-extended if narrow, 2 bytes little-endian if wide (R53). -/
def takeImm (w : Width) (bs : List Byte) : Option (Word × List Byte) :=
  match w with
  | .byte => (takeU8 bs).map fun r => (zext16 r.1, r.2)
  | .word => takeU16 bs

/-- Class `RM_REG` (R89, R90): ModRM, then the displacement; `d` picks the constructor (R84). -/
def decodeRmReg (op : Byte) (bs : List Byte) : Decoded :=
  match takeU8 bs with
  | none => .truncated op 1
  | some (m, bs) =>
    match takeRmMode (modField m) (rmField m) bs with
    | none => .truncated op 2
    | some (rm, bs) =>
      if opDir op then .instr (.movRegRm (opWidth op) (regField m) rm) bs
      else .instr (.movRmReg (opWidth op) (regField m) rm) bs

/-- Class `IMM_REG` (R91). -/
def decodeImmReg (op : Byte) (bs : List Byte) : Decoded :=
  match takeImm (immRegWidth op) bs with
  | none => .truncated op 1
  | some (v, bs) => .instr (.movRegImm (immRegWidth op) (immRegCode op) v) bs

/-- Class `IMM_MEM` (R92, R93): ModRM, the displacement, then always the immediate (R53). -/
def decodeImmMem (op : Byte) (bs : List Byte) : Decoded :=
  match takeU8 bs with
  | none => .truncated op 1
  | some (m, bs) =>
    match takeRmMode (modField m) (rmField m) bs with
    | none => .truncated op 2
    | some (rm, bs) =>
      match takeImm (opWidth op) bs with
      | none => .truncated op (2 + dlen (modField m) (rmField m))
      | some (v, bs) => .instr (.movRmImm (opWidth op) (regField m) rm v) bs

/-- Class `ACC_MEM` (R94, R95): a 16-bit address whatever `w` is; `d` picks the constructor (R84). -/
def decodeAccMem (op : Byte) (bs : List Byte) : Decoded :=
  match takeU16 bs with
  | none => .truncated op 1
  | some (a, bs) =>
    if opDir op then .instr (.movMemAcc (opWidth op) a) bs
    else .instr (.movAccMem (opWidth op) a) bs

/-- The instruction at the front of a list of bytes: the verdict on the opcode byte selects one
routine (R84). -/
def decode : List Byte → Decoded
  | [] => .noByte
  | op :: bs =>
    match classify op with
    | .immMem => decodeImmMem op bs
    | .immReg => decodeImmReg op bs
    | .rmReg => decodeRmReg op bs
    | .accMem => decodeAccMem op bs
    | .none => .unsupported op

/-! ### Encoding -/

/-- The `mod` field that spells a mode (R51). -/
def RmMode.mod : RmMode → BitVec 2
  | .reg _ => 0b11#2
  | .base _ => 0b00#2
  | .direct _ => 0b00#2
  | .disp8 _ _ => 0b01#2
  | .disp16 _ _ => 0b10#2

/-- The `rm` field that spells a mode (R51). -/
def RmMode.rm : RmMode → Code3
  | .reg rm => rm
  | .base rm => rm
  | .direct _ => 0b110#3
  | .disp8 rm _ => rm
  | .disp16 rm _ => rm

/-- The bytes after the ModRM byte (R52, R54). -/
def RmMode.tail : RmMode → List Byte
  | .reg _ => []
  | .base _ => []
  | .direct a => [lowByte a, highByte a]
  | .disp8 _ b => [b]
  | .disp16 _ v => [lowByte v, highByte v]

/-- The ModRM byte `mm ggg xxx` (R49). -/
def modRM (mod : BitVec 2) (reg rm : Code3) : Byte := mod ++ reg ++ rm

/-- The immediate field (R53). -/
def immBytes (w : Width) (v : Word) : List Byte :=
  match w with
  | .byte => [lowByte v]
  | .word => [lowByte v, highByte v]

/-- The opcode byte (the table's "encoding" column; R45 to R48, `d` by R84). -/
def Instr.opcode : Instr → Byte
  | .movRmReg w _ _ => 0b1000100#7 ++ w.bit
  | .movRegRm w _ _ => 0b1000101#7 ++ w.bit
  | .movRegImm w r _ => 0b1011#4 ++ w.bit ++ r
  | .movRmImm w _ _ _ => 0b1100011#7 ++ w.bit
  | .movAccMem w _ => 0b1010000#7 ++ w.bit
  | .movMemAcc w _ => 0b1010001#7 ++ w.bit

/-- The bytes of an instruction after its opcode byte (R54). -/
def Instr.operandBytes : Instr → List Byte
  | .movRmReg _ reg rm => modRM rm.mod reg rm.rm :: rm.tail
  | .movRegRm _ reg rm => modRM rm.mod reg rm.rm :: rm.tail
  | .movRegImm w _ v => immBytes w v
  | .movRmImm w ign rm v => modRM rm.mod ign rm.rm :: (rm.tail ++ immBytes w v)
  | .movAccMem _ a => [lowByte a, highByte a]
  | .movMemAcc _ a => [lowByte a, highByte a]

/-- The bytes of an instruction in order of increasing offset (R54). -/
def encode (i : Instr) : List Byte := i.opcode :: i.operandBytes

/-- Bytes of an immediate: `1 + w` (R53). -/
def Width.immLen : Width → Nat
  | .byte => 1
  | .word => 2

/-- Bytes after the ModRM byte: `dlen(mod, rm)` (R51). -/
def RmMode.len (m : RmMode) : Nat := dlen m.mod m.rm

/-- The widths, in bytes, of the reads that follow the opcode byte, in field order (R54, R118). -/
def Instr.fields : Instr → List Nat
  | .movRmReg _ _ rm => [1, rm.len]
  | .movRegRm _ _ rm => [1, rm.len]
  | .movRegImm w _ _ => [w.immLen]
  | .movRmImm w _ rm _ => [1, rm.len, w.immLen]
  | .movAccMem _ _ => [2]
  | .movMemAcc _ _ => [2]

/-- Instruction length (R55). -/
def Instr.length : Instr → Nat
  | .movRmReg _ _ rm => 2 + rm.len
  | .movRegRm _ _ rm => 2 + rm.len
  | .movRegImm w _ _ => 1 + w.immLen
  | .movRmImm w _ rm _ => 2 + rm.len + w.immLen
  | .movAccMem _ _ => 3
  | .movMemAcc _ _ => 3

/-! ### Words as opcode_table.json numbers them -/

/-- The longest instruction, in bytes (R43, R55). -/
def maxLength : Nat := 6

/-- The bytes of a table word: byte `k` is bits `8k+7 .. 8k`, bits from `nbits` up are zero. -/
def wordBytes (nbits w : Nat) : List Byte :=
  (List.range maxLength).map fun k => BitVec.ofNat 8 ((w % 2 ^ nbits) >>> (8 * k))

/-- The instruction the decoder reads from a table word. -/
def decodeTableWord (nbits w : Nat) : Option Instr :=
  match decode (wordBytes nbits w) with
  | .instr i _ => some i
  | .truncated _ _ => none
  | .unsupported _ => none
  | .noByte => none

end Sys2Proof
end

