-- ==== Sys2Proof/Machine/State.lean ====
section
/-! DEFINITION. The values the block produces (10_state.md R20 to R24) and the state it keeps (R10). -/

namespace Sys2Proof.Machine

/-- A register identifier `REG(w, code)` (R17). The block holds no register contents (R19). -/
structure RegId where
  w : Width
  code : Code3
deriving DecidableEq, Repr

/-- An effective address (R21): a base expression named by `rm` with a displacement `disp` that took
`n` bytes, or a direct address. -/
inductive EffAddr where
  | base (rm : Code3) (disp : Int) (n : Nat)
  | direct (a : Word)
deriving DecidableEq, Repr

/-- An operand (R20). -/
inductive Operand where
  | reg (r : RegId)
  | mem (ea : EffAddr)
  | imm (v : Word) (w : Width)
deriving DecidableEq, Repr

/-- The mnemonic field, always `mov` (R22). -/
inductive Mnemonic where
  | mov
deriving DecidableEq, Repr

/-- The size hint (R22, R99). -/
inductive SizeHint where
  | none
  | byte
  | word
deriving DecidableEq, Repr

/-- An instruction record (R22). -/
structure Record where
  mnemonic : Mnemonic
  dst : Operand
  src : Operand
  hint : SizeHint
deriving DecidableEq, Repr

/-- `STATUS` (R13). -/
inductive Status where
  /-- `READY`: the pass is live. -/
  | ready
  /-- `END`: the pass ended cleanly. -/
  | ended
  /-- `ERROR`: the pass ended with a decode error. -/
  | error
deriving DecidableEq, Repr

/-- `ERR_KIND` (R14, R113). -/
inductive ErrKind where
  | none
  | truncated
  | unsupportedOpcode
deriving DecidableEq, Repr

/-- The response of one request (R24). -/
inductive Response where
  /-- `Instr(i)`. -/
  | instr (r : Record)
  /-- `End`. -/
  | ended
  /-- `Error(kind, offset, byte)`. -/
  | error (kind : ErrKind) (offset : Nat) (byte : Byte)
deriving DecidableEq, Repr

/-- The input buffer's bytes by offset, in one canonical form (`Memory.wf`): offsets strictly rising,
no entry equal to what an unlisted offset reads as. -/
abbrev Memory := List Host.Cell

/-- The architectural state `(BUF, N, POS, STATUS, ERR_KIND, ERR_OFFSET, ERR_BYTE)` of R10, and
`resp`, the response of the last request, which is the model's own field (log entry 1). -/
structure State where
  buf : Memory
  n : Nat
  pos : Nat
  status : Status
  errKind : ErrKind
  errOffset : Nat
  errByte : Byte
  resp : Option Response
deriving DecidableEq, Repr

/-- After reset (R128): `POS = 0`, `STATUS = READY`, `ERR_KIND = NONE`, `ERR_OFFSET = 0`,
`ERR_BYTE = 0x00`. Reset leaves `BUF` and `N` as the host supplied them; here the host has supplied
none (DESIGN CHOICE, log entry 2). -/
def State.reset : State :=
  { buf := [], n := 0, pos := 0, status := .ready, errKind := .none, errOffset := 0,
    errByte := 0x00#8, resp := Option.none }

/-- Why the machine stops with a fault. -/
inductive Fault where
  /-- Raised by a request, or by a meaning, in a state whose `POS` is past the buffer, so that there
  is no opcode byte to read. R11 (`0 <= POS <= N`) excludes such states, and in a state with
  `POS = N` a request answers `End`. Safe: no run from reset reaches it (log entry 7). -/
  | noOpcodeByte
deriving DecidableEq, Repr

/-- Why the model gives something no meaning. -/
inductive Refusal where
  /-- Raised by `exec` for an instruction without a meaning; no arm does. Safe. -/
  | notModelled (mnemonic : String)
  /-- Raised by `hostAct`: the host changes `BUF` or `N` while a pass is live (R42, R134, D14). Safe. -/
  | bufferChangedWhileLive
  /-- Raised by `hostAct` and `boot`: a buffer longer than `N_MAX` (D13, U3). Safe. -/
  | bufferTooLong
  /-- Raised by `hostAct`: two requests at once, or two agents on one block (R135, D21). Safe. -/
  | overlappingRequests
  /-- Raised by `hostAct`: the host writes `POS`, `STATUS` or `ERR_*` (R15, R135). Safe. -/
  | hostWroteBlockState
  /-- Raised by `requestTo`: a request to a block that does not exist (R126). Safe. -/
  | noSuchBlock
deriving DecidableEq, Repr

end Sys2Proof.Machine
end

