-- ==== Sys2Proof/Machine/Ops.lean ====
section
/-! DEFINITION. The named operations over the buffer, the cursor and the latches: buffer bytes
(20_memory.md), cursor reads (R30 to R33), error entry and reset (60_exceptions.md R119,
70_reset_and_hazards.md R128), and the one routine every instruction's meaning runs. -/

namespace Sys2Proof.Machine

/-! ### The buffer -/

/-- What an offset with no entry reads as. The host supplies every byte below `N` (R130), so an
absent entry there stands for a byte `0x00` that it placed (log entry 3). -/
def Memory.unlisted : Byte := 0x00#8

/-- The byte at an offset. -/
def Memory.read : Memory → Nat → Byte
  | [], _ => Memory.unlisted
  | (a', b) :: m, a => if a = a' then b else Memory.read m a

/-- The entry for an offset, put in its place. -/
def Memory.put : Memory → Nat → Byte → Memory
  | [], a, b => [(a, b)]
  | (a', b') :: m, a, b =>
    if a < a' then (a, b) :: (a', b') :: m
    else if a = a' then (a, b) :: m
    else (a', b') :: Memory.put m a b

/-- The entry for an offset, taken out. -/
def Memory.drop : Memory → Nat → Memory
  | [], _ => []
  | (a', b') :: m, a => if a = a' then m else (a', b') :: Memory.drop m a

/-- A write that keeps the canonical form. -/
def Memory.write (m : Memory) (a : Nat) (b : Byte) : Memory :=
  if b = Memory.unlisted then m.drop a else m.put a b

/-- Bytes written at rising offsets. -/
def Memory.writeBytes (m : Memory) (a : Nat) : List Byte → Memory
  | [] => m
  | b :: bs => Memory.writeBytes (m.write a b) (a + 1) bs

/-- The canonical form: offsets strictly rising, no entry equal to what an unlisted offset reads as. -/
def Memory.wf : Memory → Bool
  | [] => true
  | (a, b) :: m => b != Memory.unlisted && m.all (fun c => decide (a < c.1)) && Memory.wf m

/-- Offset `n` and beyond hold nothing (R29). -/
def Memory.below (m : Memory) (n : Nat) : Bool := m.all fun c => decide (c.1 < n)

/-- `BUF[a]`; offset `N` and beyond hold nothing (R28, R29). -/
def State.byteAt (s : State) (a : Nat) : Option Byte :=
  if a < s.n then some (s.buf.read a) else Option.none

/-- The whole buffer `BUF[0] .. BUF[N-1]` (R28). -/
def State.bytes (s : State) : List Byte := (List.range s.n).map s.buf.read

/-- The bytes at the cursor that one request may read: at most `maxLength` of those left (R133). -/
def State.window (s : State) : List Byte :=
  (List.range (min maxLength (s.n - s.pos))).map fun k => s.buf.read (s.pos + k)

/-! ### The cursor (R30 to R33, R39) -/

/-- `POS` advanced. -/
def State.advance (s : State) (k : Nat) : State := { s with pos := s.pos + k }

/-- The length check and advance that a read of `k` bytes makes: the check comes before any byte is
consumed, and a failed read leaves `POS` (R31, R33). -/
def State.consume (s : State) (k : Nat) : Option State :=
  if s.n - s.pos < k then Option.none else some (s.advance k)

/-- What a cursor read answers: a value and the state after it, or `Exhausted` with the state the
failing read began in. -/
inductive ReadResult (α : Type) where
  | ok (v : α) (s : State)
  | exhausted (s : State)
deriving DecidableEq, Repr

/-- A read followed by more work; `Exhausted` propagates unchanged (R63, R71). -/
def ReadResult.bind {α β : Type} (r : ReadResult α) (f : α → State → ReadResult β) :
    ReadResult β :=
  match r with
  | .ok v s => f v s
  | .exhausted s => .exhausted s

/-- `ReadU8` (R30). -/
def readU8 (s : State) : ReadResult Byte :=
  match s.consume 1 with
  | some t => .ok (s.buf.read s.pos) t
  | Option.none => .exhausted s

/-- `ReadU16LE` (R31). -/
def readU16LE (s : State) : ReadResult Word :=
  match s.consume 2 with
  | some t => .ok (joinLE (s.buf.read s.pos) (s.buf.read (s.pos + 1))) t
  | Option.none => .exhausted s

/-- `ReadS8` (R32). -/
def readS8 (s : State) : ReadResult Word := (readU8 s).bind fun b t => .ok (sext16 b) t

/-! ### Responses, error entry, reset -/

/-- The response of a request, latched for the host to see (log entry 1). -/
def State.respond (s : State) (r : Response) : State := { s with resp := some r }

/-- Which offset an error reports (R116). -/
def errOffsetOf (mode : ErrOffsetMode) (start p : Nat) : Nat :=
  match mode with
  | .instrStart => start
  | .failPos => p

/-- The latches written on error entry (R86 `Fail`, R119): `start` is the offset of the opcode byte
`op`, `p` the offset at which the failing read began. `POS` stays where that read left it. -/
def State.latchError (s : State) (kind : ErrKind) (start : Nat) (op : Byte) (p : Nat) : State :=
  { s with status := .error, errKind := kind,
           errOffset := errOffsetOf Config.errOffsetMode start p, errByte := op }

/-- `Error(ERR_KIND, ERR_OFFSET, ERR_BYTE)`, the latched error as a response (R86, R122). -/
def State.errorResponse (s : State) : Response := .error s.errKind s.errOffset s.errByte

/-- Taking a decode error (R119): the latches, and the response that reports them. -/
def State.fail (s : State) (kind : ErrKind) (start : Nat) (op : Byte) (p : Nat) : State :=
  (s.latchError kind start op p).respond (s.latchError kind start op p).errorResponse

/-- Reset of a block (R128), the one way out of `END` and `ERROR` (R121): `BUF` and `N` stay. The
response of an earlier request is gone (log entry 1). -/
def State.resetBlock (s : State) : State :=
  { s with pos := 0, status := .ready, errKind := .none, errOffset := 0, errByte := 0x00#8,
           resp := Option.none }

/-- A buffer placed by the host: its bytes and their count (R130); no other element changes (R15, R39).
DESIGN CHOICE (log entry 18): placed after `END` or `ERROR`, it leaves `POS` and `ERR_OFFSET` as they were,
past the new `N` perhaps, so that the invariants of R16 may be suspended until the reset that R130
asks for next. -/
def State.place (s : State) (bs : List Byte) : State :=
  { s with buf := Memory.writeBytes [] 0 bs, n := bs.length }

/-! ### The routine every meaning runs -/

/-- What reading a row of fields comes to. -/
inductive Consumed where
  /-- Every field was there; the cursor is after the last. -/
  | all (s : State)
  /-- A field was cut short; the cursor is where its read began. -/
  | short (s : State)
deriving DecidableEq, Repr

/-- Fields read one after another; later fields than a failing one are not read (R118). -/
def State.consumeAll (s : State) : List Nat → Consumed
  | [] => .all s
  | k :: ks =>
    match s.consume k with
    | some t => t.consumeAll ks
    | Option.none => .short s

/-- A decode routine on an instruction whose opcode byte is `op` and whose later fields have the given
widths: the record as the response when every field is there, else `TRUNCATED` (R87, R114). -/
def State.routine (s : State) (op : Byte) (fields : List Nat) (r : Record) :
    Host.Outcome State Fault Refusal :=
  if s.pos < s.n then
    match (s.advance 1).consumeAll fields with
    | .all t => .next (t.respond (.instr r))
    | .short t => .next (t.fail .truncated s.pos op t.pos)
  else .fault .noOpcodeByte

end Sys2Proof.Machine
end

