-- ==== Sys2Proof/Machine/Operands.lean ====
section
/-! DEFINITION. The register table (10_state.md R17), the operand forms and the addressing-mode
resolver (40_resolver.md), the order of operands (42_mov.md R88), and what an effective address
denotes (R73). -/

namespace Sys2Proof.Machine

/-! ### Register identifiers (R17, R18) -/

/-- The sixteen 8086 general registers that a record can name (R17). -/
inductive RegName where
  | al | cl | dl | bl | ah | ch | dh | bh
  | ax | cx | dx | bx | sp | bp | si | di
deriving DecidableEq, Repr

/-- The eight byte registers by code (R17). -/
def byteRegs : Vector RegName 8 := #v[.al, .cl, .dl, .bl, .ah, .ch, .dh, .bh]

/-- The eight word registers by code (R17). -/
def wordRegs : Vector RegName 8 := #v[.ax, .cx, .dx, .bx, .sp, .bp, .si, .di]

/-- The register that `REG(w, code)` names (R17). -/
def RegId.name (r : RegId) : RegName :=
  match r.w with
  | .byte => byteRegs[r.code.toFin]
  | .word => wordRegs[r.code.toFin]

/-- The identifier of a register (R18). -/
def RegName.id : RegName → RegId
  | .al => ⟨.byte, 0b000#3⟩ | .cl => ⟨.byte, 0b001#3⟩ | .dl => ⟨.byte, 0b010#3⟩
  | .bl => ⟨.byte, 0b011#3⟩ | .ah => ⟨.byte, 0b100#3⟩ | .ch => ⟨.byte, 0b101#3⟩
  | .dh => ⟨.byte, 0b110#3⟩ | .bh => ⟨.byte, 0b111#3⟩
  | .ax => ⟨.word, 0b000#3⟩ | .cx => ⟨.word, 0b001#3⟩ | .dx => ⟨.word, 0b010#3⟩
  | .bx => ⟨.word, 0b011#3⟩ | .sp => ⟨.word, 0b100#3⟩ | .bp => ⟨.word, 0b101#3⟩
  | .si => ⟨.word, 0b110#3⟩ | .di => ⟨.word, 0b111#3⟩

/-- The accumulator `REG(w, 000)`: `AL` or `AX` (R9, R17). -/
def accumulator (w : Width) : RegId := ⟨w, 0b000#3⟩

/-! ### Operand forms -/

/-- A displacement byte: sign-extended (R52, R68). -/
def disp8Value (b : Byte) : Int := (sext16 b).toInt

/-- A displacement word: unsigned (R52, R69; 90_conflicts.md C7). -/
def disp16Value (v : Word) : Int := (v.toNat : Int)

/-- The operand an addressing mode is, for the instruction's width (R65 to R69). -/
def RmMode.operand (m : RmMode) (w : Width) : Operand :=
  match m with
  | .reg rm => .reg ⟨w, rm⟩
  | .base rm => .mem (.base rm 0 0)
  | .direct a => .mem (.direct a)
  | .disp8 rm b => .mem (.base rm (disp8Value b) 1)
  | .disp16 rm v => .mem (.base rm (disp16Value v) 2)

/-- `Resolve(mod, rm, w)` through the cursor, as R63 writes it. -/
def resolve (mod : BitVec 2) (rm : Code3) (w : Width) (s : State) : ReadResult Operand :=
  if mod = 0b11#2 then .ok (.reg ⟨w, rm⟩) s
  else if mod = 0b00#2 then
    if rm = 0b110#3 then (readU16LE s).bind fun a t => .ok (.mem (.direct a)) t
    else .ok (.mem (.base rm 0 0)) s
  else if mod = 0b01#2 then (readS8 s).bind fun d t => .ok (.mem (.base rm d.toInt 1)) t
  else (readU16LE s).bind fun v t => .ok (.mem (.base rm (v.toNat : Int) 2)) t

/-- The immediate through the cursor (R91, R92). -/
def readImm (w : Width) (s : State) : ReadResult Word :=
  match w with
  | .byte => (readU8 s).bind fun b t => .ok (zext16 b) t
  | .word => readU16LE s

/-- `Order_RM_REG`: destination and source; `d = 1` makes the `reg` operand the destination (R88). -/
def orderRmReg (d : Bool) (regop rmop : Operand) : Operand × Operand :=
  if d then (regop, rmop) else (rmop, regop)

/-- `Order_ACC_MEM`: destination and source; `d = 0` makes the accumulator the destination (R88,
90_conflicts.md C3). -/
def orderAccMem (d : Bool) (accop memop : Operand) : Operand × Operand :=
  if d then (memop, accop) else (accop, memop)

/-- The size hint of the immediate-to-memory class (R92, R99). -/
def hintOf : Width → SizeHint
  | .byte => .byte
  | .word => .word

/-- A record from a (destination, source) pair (R22). -/
def mkRecord (p : Operand × Operand) (hint : SizeHint) : Record := ⟨.mov, p.1, p.2, hint⟩

/-! ### What an effective address denotes (R64, R73) -/

/-- The registers of the base expression that `rm` names (R64; `110` is BP, 90_conflicts.md C4). -/
def baseRegs : Vector (List RegName) 8 :=
  #v[[.bx, .si], [.bx, .di], [.bp, .si], [.bp, .di], [.si], [.di], [.bp], [.bx]]

/-- The base expression of an `rm` field (R64). -/
def baseOf (rm : Code3) : List RegName := baseRegs[rm.toFin]

/-- The 16-bit address an effective address denotes for a consumer's register values: the sum of the
base registers and the displacement modulo 2^16, or the direct address (R73). The block itself computes
no address. -/
def EffAddr.denote (regs : RegName → Word) : EffAddr → Word
  | .base rm disp _ => ((baseOf rm).map regs).sum + BitVec.ofInt 16 disp
  | .direct a => a

end Sys2Proof.Machine
end

