-- ==== Sys2Proof/Machine/Mov.lean ====
section
/-! DEFINITION. The six instructions of the MOV family (42_mov.md): the record each decodes to, and its
meaning at the cursor. What a meaning computes is the record, not the execution of the `MOV`
(R19, R96). -/

namespace Sys2Proof.Machine

/-! ### The records -/

/-- R89: `d = 0`. -/
def movRmRegRecord (w : Width) (reg : Code3) (rm : RmMode) : Record :=
  mkRecord (orderRmReg false (.reg ⟨w, reg⟩) (RmMode.operand rm w)) .none

/-- R90: `d = 1`. -/
def movRegRmRecord (w : Width) (reg : Code3) (rm : RmMode) : Record :=
  mkRecord (orderRmReg true (.reg ⟨w, reg⟩) (RmMode.operand rm w)) .none

/-- R91. -/
def movRegImmRecord (w : Width) (r : Code3) (v : Word) : Record :=
  mkRecord (.reg ⟨w, r⟩, .imm v w) .none

/-- R92, and R93 for a register destination: the hint is set in both. -/
def movRmImmRecord (w : Width) (rm : RmMode) (v : Word) : Record :=
  mkRecord (RmMode.operand rm w, .imm v w) (hintOf w)

/-- R94: `d = 0`. -/
def movAccMemRecord (w : Width) (a : Word) : Record :=
  mkRecord (orderAccMem false (.reg (accumulator w)) (.mem (.direct a))) .none

/-- R95: `d = 1`. -/
def movMemAccRecord (w : Width) (a : Word) : Record :=
  mkRecord (orderAccMem true (.reg (accumulator w)) (.mem (.direct a))) .none

/-- The record an instruction decodes to. -/
def recordOf : Instr → Record
  | .movRmReg w reg rm => movRmRegRecord w reg rm
  | .movRegRm w reg rm => movRegRmRecord w reg rm
  | .movRegImm w r v => movRegImmRecord w r v
  | .movRmImm w _ rm v => movRmImmRecord w rm v
  | .movAccMem w a => movAccMemRecord w a
  | .movMemAcc w a => movMemAccRecord w a

/-! ### The meanings -/

/-- `MOV r/m, reg` at the cursor (R89). -/
def execMovRmReg (w : Width) (reg : Code3) (rm : RmMode) (s : State) :
    Host.Outcome State Fault Refusal :=
  s.routine (Instr.movRmReg w reg rm).opcode [1, rm.len] (movRmRegRecord w reg rm)

/-- `MOV reg, r/m` at the cursor (R90). -/
def execMovRegRm (w : Width) (reg : Code3) (rm : RmMode) (s : State) :
    Host.Outcome State Fault Refusal :=
  s.routine (Instr.movRegRm w reg rm).opcode [1, rm.len] (movRegRmRecord w reg rm)

/-- `MOV reg, imm` at the cursor (R91). -/
def execMovRegImm (w : Width) (r : Code3) (v : Word) (s : State) :
    Host.Outcome State Fault Refusal :=
  s.routine (Instr.movRegImm w r v).opcode [w.immLen] (movRegImmRecord w r v)

/-- `MOV r/m, imm` at the cursor (R92, R93). The ModRM `reg` field `ign` has no effect (R59). -/
def execMovRmImm (w : Width) (ign : Code3) (rm : RmMode) (v : Word) (s : State) :
    Host.Outcome State Fault Refusal :=
  s.routine (Instr.movRmImm w ign rm v).opcode [1, rm.len, w.immLen] (movRmImmRecord w rm v)

/-- `MOV acc, [addr]` at the cursor (R94). -/
def execMovAccMem (w : Width) (a : Word) (s : State) : Host.Outcome State Fault Refusal :=
  s.routine (Instr.movAccMem w a).opcode [2] (movAccMemRecord w a)

/-- `MOV [addr], acc` at the cursor (R95). -/
def execMovMemAcc (w : Width) (a : Word) (s : State) : Host.Outcome State Fault Refusal :=
  s.routine (Instr.movMemAcc w a).opcode [2] (movMemAccRecord w a)

end Sys2Proof.Machine
end

