-- ==== Sys2Proof/Machine/Dispatch.lean ====
section
/-! DEFINITION. One arm per instruction. -/

namespace Sys2Proof.Machine

def exec (i : Instr) (s : State) : Host.Outcome State Fault Refusal :=
  match i with
  | .movRmReg w reg rm => Sys2Proof.Machine.execMovRmReg w reg rm s
  | .movRegRm w reg rm => Sys2Proof.Machine.execMovRegRm w reg rm s
  | .movRegImm w r v => Sys2Proof.Machine.execMovRegImm w r v s
  | .movRmImm w ign rm v => Sys2Proof.Machine.execMovRmImm w ign rm v s
  | .movAccMem w a => Sys2Proof.Machine.execMovAccMem w a s
  | .movMemAcc w a => Sys2Proof.Machine.execMovMemAcc w a s

end Sys2Proof.Machine
end

