-- ==== Sys2Proof/Machine/Fetch.lean ====
section
/-! DEFINITION. A request (42_mov.md R86) in two stages: decode the bytes at the cursor, then run the
instruction's meaning. `Machine/Request.lean` writes the same request as the spec's own pseudocode. -/

namespace Sys2Proof.Machine

/-- The end of a pass (R86, R131): `STATUS <- END`, response `End`. -/
def State.finish (s : State) : State := { s with status := .ended }.respond .ended

/-- One request. The order of its outcomes is that of R118. -/
def request (s : State) : Host.Outcome State Fault Refusal :=
  match s.status with
  | .error => .next (s.respond s.errorResponse)
  | .ended => .next (s.respond .ended)
  | .ready =>
    if s.pos = s.n then .next s.finish
    else
      match decode s.window with
      | .instr i _ => exec i s
      | .unsupported op => .next ((s.advance 1).fail .unsupportedOpcode s.pos op s.pos)
      | .truncated op used => .next ((s.advance used).fail .truncated s.pos op (s.pos + used))
      | .noByte => .fault .noOpcodeByte

/-- An instruction's bytes placed at the cursor of a live pass, the buffer lengthened to hold them. -/
def State.placeAtCursor (s : State) (bs : List Byte) : State :=
  { s with buf := s.buf.writeBytes s.pos bs, n := max s.n (s.pos + bs.length),
           status := .ready, errKind := .none, errOffset := 0, errByte := 0x00#8 }

end Sys2Proof.Machine
end

