-- ==== Sys2Proof/Machine/Step.lean ====
section
/-! DEFINITION. The machine's step: one request (42_mov.md R86, 92_eei_decisions.md D1). -/

namespace Sys2Proof.Machine

/-- One step of the block is one request. -/
def step (s : State) : Host.Outcome State Fault Refusal := request s

/-- The state with a table word stored where `step` fetches its next instruction (log entry 6). -/
def State.withFetchWord (s : State) (nbits w : Nat) : State := s.placeAtCursor (wordBytes nbits w)

end Sys2Proof.Machine
end

