-- ==== Sys2Proof/Machine/Format.lean ====
section
/-! DEFINITION. The formatter contract (43_formatter.md): a pure function from a record to a line of
text, here a list of characters. -/

namespace Sys2Proof.Machine

/-- One line of output, without its terminator (R100; the terminator is not given, R111). -/
abbrev Line := List Char

/-- A register's lowercase mnemonic (R101). -/
def RegName.text : RegName → Line
  | .al => ['a', 'l'] | .cl => ['c', 'l'] | .dl => ['d', 'l'] | .bl => ['b', 'l']
  | .ah => ['a', 'h'] | .ch => ['c', 'h'] | .dh => ['d', 'h'] | .bh => ['b', 'h']
  | .ax => ['a', 'x'] | .cx => ['c', 'x'] | .dx => ['d', 'x'] | .bx => ['b', 'x']
  | .sp => ['s', 'p'] | .bp => ['b', 'p'] | .si => ['s', 'i'] | .di => ['d', 'i']

/-- A base expression, with one space on each side of `+` (R102). -/
def baseText (rm : Code3) : Line := [' ', '+', ' '].intercalate ((baseOf rm).map RegName.text)

/-- A natural number in decimal, no leading zeros (R109). -/
def decimal (n : Nat) : Line := Nat.toDigits 10 n

/-- What follows the base expression: nothing, ` + d` or ` - |d|` (R103, R104, R105). -/
def dispText (d : Int) : Line :=
  if d = 0 then []
  else if 0 < d then [' ', '+', ' '] ++ decimal d.natAbs
  else [' ', '-', ' '] ++ decimal d.natAbs

/-- A memory operand (R103 to R106). -/
def eaText : EffAddr → Line
  | .base rm disp _ => ['['] ++ baseText rm ++ dispText disp ++ [']']
  | .direct a => ['['] ++ decimal a.toNat ++ [']']

/-- `Render` of one operand (R101 to R107). -/
def operandText : Operand → Line
  | .reg r => r.name.text
  | .mem ea => eaText ea
  | .imm v _ => decimal v.toNat

/-- The size word and the space after it (R108). The block sets a hint in every record with an
immediate and a memory destination (R99); without one no word is written (log entry 9). -/
def hintText : SizeHint → Line
  | .none => []
  | .byte => ['b', 'y', 't', 'e', ' ']
  | .word => ['w', 'o', 'r', 'd', ' ']

/-- The source operand of a record: an immediate into memory carries its size word (R107, R108). -/
def sourceText (dst src : Operand) (hint : SizeHint) : Line :=
  match dst, src with
  | .mem _, .imm v w => hintText hint ++ operandText (.imm v w)
  | _, o => operandText o

/-- The characters of the mnemonic (R22). -/
def Mnemonic.text : Mnemonic → Line
  | .mov => ['m', 'o', 'v']

/-- The line of a record: `mov <dest>, <src>` (R100). -/
def render (r : Record) : Line :=
  r.mnemonic.text ++ [' '] ++ operandText r.dst ++ [',', ' '] ++ sourceText r.dst r.src r.hint

/-- The line of a response, if it has one: `End` and `Error` have none (R110). -/
def responseLine : Response → Option Line
  | .instr r => some (render r)
  | .ended => Option.none
  | .error _ _ _ => Option.none

/-- The lines of a pass: one per `Instr` response, in response order (R110). -/
def passLines (rs : List Response) : List Line := rs.filterMap responseLine

end Sys2Proof.Machine
end

