-- ==== Sys2Proof/Machine/Driver.lean ====
section
/-! DEFINITION. The host's side: what it may do to a block (10_state.md R15, 70_reset_and_hazards.md
R130 to R136), a decode pass (R131), and several blocks side by side (60_exceptions.md R126). -/

namespace Sys2Proof.Machine

/-- What the host does to one block. -/
inductive HostAction where
  /-- Places the bytes of `BUF` and their count `N` (R130). -/
  | place (bs : List Byte)
  /-- Resets the block (R128). -/
  | reset
  /-- Issues one request and waits for its response (R135). -/
  | request
  /-- Issues a request before an earlier one is answered, or from a second agent (R135). -/
  | overlappingRequest
  /-- Writes `POS`, `STATUS` or an `ERR_*` register, which are read-only to it (R15). -/
  | writeBlockState
deriving DecidableEq, Repr

/-- A pass is live while `STATUS = READY` (R134). -/
def State.live (s : State) : Bool := s.status == .ready

/-- What a host action does, or why the model gives it no meaning (R15, R134, R135, D13). -/
def hostAct (a : HostAction) (s : State) : Host.Outcome State Fault Refusal :=
  match a with
  | .place bs =>
    if s.live then .refused .bufferChangedWhileLive
    else if bs.length ≤ Config.nMax then .next (s.place bs)
    else .refused .bufferTooLong
  | .reset => .next s.resetBlock
  | .request => step s
  | .overlappingRequest => .refused .overlappingRequests
  | .writeBlockState => .refused .hostWroteBlockState

/-- Host actions one after another, stopping at the first fault or refusal. -/
def hostRun : List HostAction → State → Host.Outcome State Fault Refusal
  | [], s => .next s
  | a :: as, s =>
    match hostAct a s with
    | .next t => hostRun as t
    | .fault r => .fault r
    | .refused r => .refused r

/-- The state a pass over `bs` starts in: the buffer placed, then the block reset (R130). The host
places it before reset, when no pass is live (R15). -/
def booted (bs : List Byte) : State := (State.reset.place bs).resetBlock

/-- Boot within the block's limit (R130 "with `N <= N_MAX`", D13). -/
def boot (bs : List Byte) : Host.Outcome State Fault Refusal :=
  if bs.length ≤ Config.nMax then .next (booted bs) else .refused .bufferTooLong

/-- Requests until the first `End` or `Error`, at most the given number, with their responses in order
and the state they leave (R131, R136). -/
def runPass : Nat → State → List Response × State
  | 0, s => ([], s)
  | k + 1, s =>
    match step s with
    | .next t =>
      match t.resp with
      | some (.instr r) => (.instr r :: (runPass k t).1, (runPass k t).2)
      | some .ended => ([.ended], t)
      | some (.error kind offset byte) => ([.error kind offset byte], t)
      | Option.none => ([], t)
    | .fault _ => ([], s)
    | .refused _ => ([], s)

/-- The bound on a pass's requests: `floor(N / 2) + 1` (R133). -/
def passBound (n : Nat) : Nat := n / 2 + 1

/-- The whole pass over a buffer. -/
def passOver (bs : List Byte) : List Response × State := runPass (passBound bs.length) (booted bs)

/-- A request to block `k` of several; the blocks share nothing (R126). -/
def requestTo (k : Nat) (blocks : List State) : Host.Outcome (List State) Fault Refusal :=
  match blocks[k]? with
  | Option.none => .refused .noSuchBlock
  | some s =>
    match step s with
    | .next t => .next (blocks.set k t)
    | .fault r => .fault r
    | .refused r => .refused r

end Sys2Proof.Machine
end

