-- ==== Sys2Proof/Machine/Flags.lean ====
section
/-! DEFINITION. The codes of the two status registers. The block has no status flags, condition codes
or predicates, and no decoded `MOV` writes one (10_state.md R27), so there is no flag to compute. -/

namespace Sys2Proof.Machine

/-- The 2-bit code of `STATUS` (R13). -/
def Status.code : Status → BitVec 2
  | .ready => 0b00#2
  | .ended => 0b01#2
  | .error => 0b10#2

/-- The value of `STATUS` with a code; `0b11` is never produced (R13). -/
def Status.ofCode (c : BitVec 2) : Option Status :=
  if c = 0b00#2 then some .ready
  else if c = 0b01#2 then some .ended
  else if c = 0b10#2 then some .error
  else Option.none

/-- The 2-bit code of `ERR_KIND` (R14, R113). -/
def ErrKind.code : ErrKind → BitVec 2
  | .none => 0b00#2
  | .truncated => 0b01#2
  | .unsupportedOpcode => 0b10#2

/-- The value of `ERR_KIND` with a code; `0b11` is never produced (R14). -/
def ErrKind.ofCode (c : BitVec 2) : Option ErrKind :=
  if c = 0b00#2 then some .none
  else if c = 0b01#2 then some .truncated
  else if c = 0b10#2 then some .unsupportedOpcode
  else Option.none

end Sys2Proof.Machine
end

