-- ==== Sys2Proof/Machine/Request.lean ====
section
/-! DEFINITION. The request as the spec's pseudocode writes it (42_mov.md R86, R89, R91, R92, R94): one
pass over the cursor, with no `Instr` in between. The step of `Machine/Step.lean` is stated equal
to it. -/

namespace Sys2Proof.Machine

/-- `DecodeRmReg(op)` (R89, R90). -/
def cursorRmReg (op : Byte) (s : State) : ReadResult Record :=
  (readU8 s).bind fun m s =>
  (resolve (modField m) (rmField m) (opWidth op) s).bind fun rmop s =>
  .ok (mkRecord (orderRmReg (opDir op) (.reg ⟨opWidth op, regField m⟩) rmop) .none) s

/-- `DecodeImmReg(op)` (R91). -/
def cursorImmReg (op : Byte) (s : State) : ReadResult Record :=
  (readImm (immRegWidth op) s).bind fun v s =>
  .ok (mkRecord (.reg ⟨immRegWidth op, immRegCode op⟩, .imm v (immRegWidth op)) .none) s

/-- `DecodeImmMem(op)` (R92, R93). -/
def cursorImmMem (op : Byte) (s : State) : ReadResult Record :=
  (readU8 s).bind fun m s =>
  (resolve (modField m) (rmField m) (opWidth op) s).bind fun dst s =>
  (readImm (opWidth op) s).bind fun v s =>
  .ok (mkRecord (dst, .imm v (opWidth op)) (hintOf (opWidth op))) s

/-- `DecodeAccMem(op)` (R94, R95). -/
def cursorAccMem (op : Byte) (s : State) : ReadResult Record :=
  (readU16LE s).bind fun a s =>
  .ok (mkRecord
    (orderAccMem (opDir op) (.reg (accumulator (opWidth op))) (.mem (.direct a))) .none) s

/-- The routine a verdict selects (R84); `NONE` selects none. -/
def cursorRoutine (op : Byte) (s : State) : Option (ReadResult Record) :=
  match classify op with
  | .rmReg => some (cursorRmReg op s)
  | .immReg => some (cursorImmReg op s)
  | .immMem => some (cursorImmMem op s)
  | .accMem => some (cursorAccMem op s)
  | .none => Option.none

/-- `decode_one()` (R86): the state after the request, and the response. The model's own field `resp`
takes no part. A read of the opcode byte cannot fail while `POS < N`; past the buffer (excluded by R11)
nothing is done. -/
def decodeOne (s : State) : State × Response :=
  match s.status with
  | .error => (s, s.errorResponse)
  | .ended => (s, .ended)
  | .ready =>
    if s.pos = s.n then ({ s with status := .ended }, .ended)
    else
      match readU8 s with
      | .exhausted t => (t, .ended)
      | .ok op t =>
        match cursorRoutine op t with
        | Option.none =>
          let u := t.latchError .unsupportedOpcode s.pos op s.pos
          (u, u.errorResponse)
        | some (.exhausted t) =>
          let u := t.latchError .truncated s.pos op t.pos
          (u, u.errorResponse)
        | some (.ok r t) => (t, .instr r)

end Sys2Proof.Machine
end

