-- ==== Sys2Proof/Safety.lean ====
section
/-! DEFINITION. What counts as a legal record and a legal state, in the terms the claims use
(10_state.md R14, R16, R20 to R22). -/

namespace Sys2Proof.Machine

/-- The three legal combinations of displacement and byte count (R21). -/
def EffAddr.legal : EffAddr → Prop
  | .base rm disp n =>
    (n = 0 ∧ disp = 0 ∧ rm ≠ 0b110#3) ∨ (n = 1 ∧ -128 ≤ disp ∧ disp ≤ 127) ∨
      (n = 2 ∧ 0 ≤ disp ∧ disp ≤ 65535)
  | .direct _ => True

/-- A byte immediate is at most 255 (R20). -/
def Operand.legal : Operand → Prop
  | .reg _ => True
  | .mem ea => ea.legal
  | .imm v w => w = .byte → v.toNat ≤ 255

/-- The size hint a record must carry: that of its immediate when its destination came from a ModRM
byte, which only class `IMM_MEM` makes (R99); a memory destination with an immediate always has one. -/
def Record.hintLegal (r : Record) : Prop :=
  match r.src with
  | .imm _ w => (r.hint = .none ∧ ∃ x, r.dst = .reg x) ∨ r.hint = hintOf w
  | .reg _ => r.hint = .none
  | .mem _ => r.hint = .none

/-- A record the block may answer: legal operands, a destination that is no immediate, and the right
hint (R20, R21, R22, R99). -/
def Record.legal (r : Record) : Prop :=
  r.dst.legal ∧ r.src.legal ∧ (∀ v w, r.dst ≠ .imm v w) ∧ r.hintLegal

/-- A response fits the state it was given in: an `End` or `Error` is that of the status, and a record
is legal (R24, R86). -/
def State.respLegal (s : State) : Prop :=
  match s.resp with
  | Option.none => s.status = .ready
  | some (.instr r) => s.status = .ready ∧ r.legal
  | some .ended => s.status = .ended
  | some (.error kind offset byte) =>
    s.status = .error ∧ kind = s.errKind ∧ offset = s.errOffset ∧ byte = s.errByte

/-- The buffer is in its canonical form and holds nothing at offset `N` and beyond (R29). -/
def State.bufLegal (s : State) : Prop := s.buf.wf = true ∧ s.buf.below s.n = true

/-- The invariants that hold between requests (R16, with R14's zero fields). From the placing of a buffer
after `END` or `ERROR` to the reset after it they may be suspended (log entry 18). -/
structure State.Inv (s : State) : Prop where
  buf : s.bufLegal
  posInBuffer : s.pos ≤ s.n
  ended : s.status = .ended → s.pos = s.n
  errKind : s.errKind = .none ↔ s.status ≠ .error
  errOffset : s.status = .error → s.errOffset ≤ s.pos
  errZero : s.status ≠ .error → s.errOffset = 0 ∧ s.errByte = 0x00#8
  resp : s.respLegal

/-- A response that ends a pass (R131). -/
def Response.final : Response → Bool
  | .instr _ => false
  | .ended => true
  | .error _ _ _ => true

end Sys2Proof.Machine
end

