-- ==== Sys2Proof/Certificates/Slice0/Obligations.lean ====
section
/-! DEFINITION. The statements for the provers. A docstring that names a decision D<n>, a conflict C<n> or
a log entry says that the clause is the spec's own choice or inference, or the model's, and not the
source's words. -/

namespace Sys2Proof.Claims

open Sys2Proof.Machine

/-- The offset an error reports for an instruction at `start` whose failing read began at `p`: the
two values of `ERR_OFFSET_MODE` (60_exceptions.md R116, D9). -/
def reportedOffset (start p : Nat) : Nat :=
  if Config.errOffsetMode = .instrStart then start else p

/-- The state in which `TRUNCATED` has been taken on the instruction at the cursor, whose opcode byte
is `op`, at a read that began at `p` (60_exceptions.md R119). Nothing else changes. -/
def truncatedAt (s : State) (op : Byte) (p : Nat) : State :=
  { s with pos := p, status := .error, errKind := .truncated,
           errOffset := reportedOffset s.pos p, errByte := op,
           resp := some (.error .truncated (reportedOffset s.pos p) op) }

/-- The state in which an instruction of length `len` has been answered with record `r`: the cursor
and the response alone change (10_state.md R12, 42_mov.md R96). -/
def answered (s : State) (len : Nat) (r : Record) : State :=
  { s with pos := s.pos + len, resp := some (.instr r) }

/-- The width a width bit names (00_scope.md R9). -/
def widthOf (b : Bool) : Width := if b then .word else .byte

end Sys2Proof.Claims

open Sys2Proof Sys2Proof.Machine Sys2Proof.Claims

/-! ### Encoding and matching -/

/-- One word of each constructor, written from its encoding, decodes to the instruction it stands for.
The accumulator words rest on D4 and D5, the `C7` word on D3. -/
def Obligations.WrittenWordsDecode : Prop :=
  -- 1000100 1, 11 011 001
  decode [0b10001001#8, 0b11011001#8] = .instr (.movRmReg .word 0b011#3 (.reg 0b001#3)) [] ∧
  -- 1000101 1, 01 001 001, 0xDB
  decode [0b10001011#8, 0b01001001#8, 0xDB#8]
    = .instr (.movRegRm .word 0b001#3 (.disp8 0b001#3 0xDB#8)) [] ∧
  -- 1011 0 001, 0x0C
  decode [0b10110001#8, 0x0C#8] = .instr (.movRegImm .byte 0b001#3 0x000C#16) [] ∧
  -- 1100011 1, 00 000 110, E8 03, 2C 01
  decode [0b11000111#8, 0b00000110#8, 0xE8#8, 0x03#8, 0x2C#8, 0x01#8]
    = .instr (.movRmImm .word 0b000#3 (.direct 1000#16) 300#16) [] ∧
  -- 1010000 1, FB 09
  decode [0b10100001#8, 0xFB#8, 0x09#8] = .instr (.movAccMem .word 2555#16) [] ∧
  -- 1010001 1, FA 09
  decode [0b10100011#8, 0xFA#8, 0x09#8] = .instr (.movMemAcc .word 2554#16) []

/-- Decoding an encoded well-formed instruction gives it back, whatever bytes follow. -/
def Obligations.DecodeOfEncodeIsIdentity : Prop :=
  ∀ (i : Instr) (rest : List Byte), i.wf = true → decode (encode i ++ rest) = .instr i rest

/-- The other direction: bytes that decode to an instruction are that instruction's encoding, and the
instruction is well-formed. -/
def Obligations.DecodedBytesAreTheEncoding : Prop :=
  ∀ (bs : List Byte) (i : Instr) (rest : List Byte),
    decode bs = .instr i rest → i.wf = true ∧ bs = encode i ++ rest

/-- The decoder rejects a list as truncated exactly when it is a proper part, opcode byte included, of
some well-formed instruction's encoding; then the field that is cut short began in the list, after the
opcode byte. -/
def Obligations.TruncatedExactlyWhenCutShort : Prop :=
  ∀ bs : List Byte,
    ((∃ op used, decode bs = .truncated op used) ↔
      ∃ (i : Instr) (k : Nat), i.wf = true ∧ 1 ≤ k ∧ k < i.length ∧ bs = (encode i).take k) ∧
    (∀ op used, decode bs = .truncated op used →
      bs.head? = some op ∧ 1 ≤ used ∧ used ≤ bs.length)

/-- Instruction lengths by class (R55, an inference the spec marks as derived), the widths of the reads
after the opcode byte (R54), and the length of the encoding. -/
def Obligations.InstructionLengths : Prop :=
  ∀ i : Instr, i.wf = true →
    (encode i).length = i.length ∧ i.length = 1 + i.fields.sum ∧
    2 ≤ i.length ∧ i.length ≤ 6 ∧
    match i with
    | .movRmReg _ _ rm => i.fields = [1, dlen rm.mod rm.rm]
    | .movRegRm _ _ rm => i.fields = [1, dlen rm.mod rm.rm]
    | .movRegImm w _ _ => i.fields = [if w = .byte then 1 else 2]
    | .movRmImm w _ rm _ => i.fields = [1, dlen rm.mod rm.rm, if w = .byte then 1 else 2]
    | .movAccMem _ _ => i.fields = [2]
    | .movMemAcc _ _ => i.fields = [2]

/-- The class of each of the 256 opcode bytes (R57, which the spec derives; it rests on D3 and D4):
26 are matched. -/
def Obligations.OpcodeMapOfAllBytes : Prop :=
  (∀ op : Byte, classify op =
    if 0x88 ≤ op.toNat ∧ op.toNat ≤ 0x8B then .rmReg
    else if 0xA0 ≤ op.toNat ∧ op.toNat ≤ 0xA3 then .accMem
    else if 0xB0 ≤ op.toNat ∧ op.toNat ≤ 0xBF then .immReg
    else if 0xC6 ≤ op.toNat ∧ op.toNat ≤ 0xC7 then .immMem
    else .none) ∧
  ((List.range 256).filter fun k => classify (BitVec.ofNat 8 k) != .none).length = 26

/-- `Classify(op)` takes the first pattern that matches, in the order of R76 (R77). The width of the first
mask is D3's, the fourth pattern is D4's. -/
def Obligations.ClassifyTakesFirstMatch : Prop :=
  ∀ op : Byte, classify op =
    if op &&& 0xFE#8 = 0xC6#8 then .immMem
    else if op &&& 0xF0#8 = 0xB0#8 then .immReg
    else if op &&& 0xFC#8 = 0x88#8 then .rmReg
    else if op &&& 0xFC#8 = 0xA0#8 then .accMem
    else .none

/-- The priority order decides no byte's class: in any order of the four patterns the verdict is the same
(R83, which the spec derives; 90_conflicts.md C12). -/
def Obligations.PatternOrderDecidesNoByte : Prop :=
  ∀ ps : List Pattern, ps.Perm patterns → ∀ op : Byte, firstMatch ps op = classify op

/-- The register table is a bijection between the 16 pairs and the 16 names (R18). -/
def Obligations.RegisterTableIsBijection : Prop :=
  (∀ r : RegId, r.name.id = r) ∧ (∀ n : RegName, n.id.name = n)

/-- The codes of `STATUS` and `ERR_KIND` (D8): distinct, read back, and `0b11` never produced. -/
def Obligations.StatusAndErrorCodes : Prop :=
  (Status.code .ready = 0b00#2 ∧ Status.code .ended = 0b01#2 ∧ Status.code .error = 0b10#2) ∧
  (ErrKind.code .none = 0b00#2 ∧ ErrKind.code .truncated = 0b01#2 ∧
    ErrKind.code .unsupportedOpcode = 0b10#2) ∧
  (∀ x : Status, Status.ofCode x.code = some x) ∧ (∀ x : ErrKind, ErrKind.ofCode x.code = some x) ∧
  Status.ofCode 0b11#2 = none ∧ ErrKind.ofCode 0b11#2 = none

/-! ### The cursor -/

/-- `ReadU8`: the next byte, `POS` advanced by 1; `Exhausted` if position equals length (R30). -/
def Obligations.ReadU8TakesNextByte : Prop :=
  ∀ s : State, s.pos ≤ s.n → readU8 s =
    if s.pos = s.n then .exhausted s
    else .ok (s.buf.read s.pos) { s with pos := s.pos + 1 }

/-- `ReadU16LE`: two bytes, the low byte first in memory, `POS` advanced by 2; `Exhausted` with no byte
consumed if fewer than 2 remain (R31). -/
def Obligations.ReadU16LETakesLowByteFirst : Prop :=
  ∀ s : State, s.pos ≤ s.n →
    (s.n < s.pos + 2 → readU16LE s = .exhausted s) ∧
    (s.pos + 2 ≤ s.n → ∃ v : Word, readU16LE s = .ok v { s with pos := s.pos + 2 } ∧
      v.toNat = (s.buf.read (s.pos + 1)).toNat * 256 + (s.buf.read s.pos).toNat)

/-- `ReadS8`: one byte as two's complement, widened keeping its sign (`0xFF` is -1, not 255) (R32). -/
def Obligations.ReadS8SignExtends : Prop :=
  ∀ s : State, s.pos ≤ s.n →
    (s.pos = s.n → readS8 s = .exhausted s) ∧
    (s.pos < s.n → ∃ v : Word, readS8 s = .ok v { s with pos := s.pos + 1 } ∧
      v.toInt = (s.buf.read s.pos).toInt ∧ -128 ≤ v.toInt ∧ v.toInt ≤ 127 ∧
      (s.buf.read s.pos = 0xFF#8 → v.toInt = -1))

/-- A failed read consumes nothing; a read that succeeds advances `POS` by exactly its width and
changes nothing else (R33). -/
def Obligations.FailedReadsConsumeNothing : Prop :=
  ∀ s t : State,
    (readU8 s = .exhausted t → t = s) ∧ (readU16LE s = .exhausted t → t = s) ∧
    (readS8 s = .exhausted t → t = s) ∧
    (∀ v, readU8 s = .ok v t → t = { s with pos := s.pos + 1 }) ∧
    (∀ v, readU16LE s = .ok v t → t = { s with pos := s.pos + 2 }) ∧
    (∀ v, readS8 s = .ok v t → t = { s with pos := s.pos + 1 })

/-! ### The addressing-mode resolver -/

/-- Mode 11: the register `REG(w, rm)`; reads nothing, cannot fail; `rm = 110` is `DH` or `SI`, never
BP (R65). -/
def Obligations.ResolveRegisterMode : Prop :=
  (∀ (rm : Code3) (w : Width) (s : State), resolve 0b11#2 rm w s = .ok (.reg ⟨w, rm⟩) s) ∧
  RegId.name ⟨.byte, 0b110#3⟩ = .dh ∧ RegId.name ⟨.word, 0b110#3⟩ = .si ∧
  RegId.name ⟨.word, 0b001#3⟩ = .cx

/-- Mode 00, `rm` not 110: the base expression with displacement 0; reads nothing, cannot fail
(R66). -/
def Obligations.ResolveBaseWithoutDisplacement : Prop :=
  (∀ (rm : Code3) (w : Width) (s : State), rm ≠ 0b110#3 →
    resolve 0b00#2 rm w s = .ok (.mem (.base rm 0 0)) s) ∧
  eaText (.base 0b000#3 0 0) = ['[', 'b', 'x', ' ', '+', ' ', 's', 'i', ']']

/-- Mode 00, `rm = 110`: a little-endian direct address, for either width; nothing of it is consumed when
fewer than 2 bytes remain; address 0 renders `[0]` (R67). -/
def Obligations.ResolveDirectAddress : Prop :=
  (∀ (w : Width) (s : State), s.pos ≤ s.n →
    (s.n < s.pos + 2 → resolve 0b00#2 0b110#3 w s = .exhausted s) ∧
    (s.pos + 2 ≤ s.n → ∃ a : Word,
      resolve 0b00#2 0b110#3 w s = .ok (.mem (.direct a)) { s with pos := s.pos + 2 } ∧
      a.toNat = (s.buf.read (s.pos + 1)).toNat * 256 + (s.buf.read s.pos).toNat)) ∧
  eaText (.direct 0#16) = ['[', '0', ']']

/-- Mode 01: the base expression and one byte, sign-extended, in -128 .. 127; every `rm`, 110 included;
`0xFF` is -1, `0x80` -128, `0x7F` 127, `0xDB` -37, and 0 renders with no displacement (R68). That the base
expression of 110 is BP is D6's. -/
def Obligations.ResolveByteDisplacement : Prop :=
  (∀ (rm : Code3) (w : Width) (s : State), s.pos ≤ s.n →
    (s.pos = s.n → resolve 0b01#2 rm w s = .exhausted s) ∧
    (s.pos < s.n → ∃ d : Int,
      resolve 0b01#2 rm w s = .ok (.mem (.base rm d 1)) { s with pos := s.pos + 1 } ∧
      d = (s.buf.read s.pos).toInt ∧ -128 ≤ d ∧ d ≤ 127)) ∧
  (BitVec.toInt 0xFF#8 = -1 ∧ BitVec.toInt 0x80#8 = -128 ∧ BitVec.toInt 0x7F#8 = 127 ∧
    BitVec.toInt 0xDB#8 = -37) ∧
  baseOf 0b110#3 = [.bp] ∧ eaText (.base 0b001#3 (-37) 1) = "[bx + di - 37]".toList ∧
  (∀ rm : Code3, eaText (.base rm 0 1) = ['['] ++ baseText rm ++ [']'])

/-- Mode 10: the base expression and a word, unsigned, in 0 .. 65535 (`FF FF` is 65535, `00 80` is
32768); nothing of the word is consumed when fewer than 2 bytes remain (R69). -/
def Obligations.ResolveWordDisplacement : Prop :=
  (∀ (rm : Code3) (w : Width) (s : State), s.pos ≤ s.n →
    (s.n < s.pos + 2 → resolve 0b10#2 rm w s = .exhausted s) ∧
    (s.pos + 2 ≤ s.n → ∃ d : Int,
      resolve 0b10#2 rm w s = .ok (.mem (.base rm d 2)) { s with pos := s.pos + 2 } ∧
      d = (s.buf.read (s.pos + 1)).toNat * 256 + (s.buf.read s.pos).toNat ∧
      0 ≤ d ∧ d ≤ 65535)) ∧
  (∀ rm : Code3, eaText (.base rm 0 2) = ['['] ++ baseText rm ++ [']']) ∧
  eaText (.base 0b111#3 65535 2) = ['[', 'b', 'x', ' ', '+', ' ', '6', '5', '5', '3', '5', ']']

/-- The resolver is total: its only failure is `Exhausted`, when fewer than `dlen(mod, rm)` bytes
remain; then the cursor has not moved, else it moves by exactly `dlen`. The number of bytes does not
depend on the width (R51, R70, R71, R74). -/
def Obligations.ResolveReadsExactlyDlen : Prop :=
  ∀ (mod : BitVec 2) (rm : Code3) (w : Width) (s : State), s.pos ≤ s.n →
    (s.pos + dlen mod rm ≤ s.n →
      ∃ o, resolve mod rm w s = .ok o { s with pos := s.pos + dlen mod rm }) ∧
    (s.n < s.pos + dlen mod rm → resolve mod rm w s = .exhausted s)

/-- The operand of a well-formed addressing mode is what the resolver reads where the mode's bytes
stand: the meanings' operand forms are the resolver's (R63, R72). -/
def Obligations.RmOperandIsWhatResolveReads : Prop :=
  ∀ (m : RmMode) (w : Width) (s : State), m.wf = true → s.pos + m.tail.length ≤ s.n →
    (∀ (k : Nat) (hk : k < m.tail.length), s.buf.read (s.pos + k) = m.tail[k]) →
    resolve m.mod m.rm w s =
      .ok (RmMode.operand m w) { s with pos := s.pos + m.tail.length }

/-- What an effective address denotes: the sum of the registers of its base expression and its
displacement modulo 2^16, or the direct address (R73; the entry `110` is BP by D6). A word
displacement read as unsigned or as signed denotes the same address (R73, derived there). -/
def Obligations.EffectiveAddressDenotation : Prop :=
  (∀ (regs : RegName → Word) (d : Int) (n : Nat),
    EffAddr.denote regs (.base 0b000#3 d n) = regs .bx + regs .si + BitVec.ofInt 16 d ∧
    EffAddr.denote regs (.base 0b001#3 d n) = regs .bx + regs .di + BitVec.ofInt 16 d ∧
    EffAddr.denote regs (.base 0b010#3 d n) = regs .bp + regs .si + BitVec.ofInt 16 d ∧
    EffAddr.denote regs (.base 0b011#3 d n) = regs .bp + regs .di + BitVec.ofInt 16 d ∧
    EffAddr.denote regs (.base 0b100#3 d n) = regs .si + BitVec.ofInt 16 d ∧
    EffAddr.denote regs (.base 0b101#3 d n) = regs .di + BitVec.ofInt 16 d ∧
    EffAddr.denote regs (.base 0b110#3 d n) = regs .bp + BitVec.ofInt 16 d ∧
    EffAddr.denote regs (.base 0b111#3 d n) = regs .bx + BitVec.ofInt 16 d) ∧
  (∀ (regs : RegName → Word) (a : Word), EffAddr.denote regs (.direct a) = a) ∧
  (∀ (regs : RegName → Word) (rm : Code3) (v : Word) (n : Nat),
    EffAddr.denote regs (.base rm (v.toNat : Int) n) = EffAddr.denote regs (.base rm v.toInt n))

/-! ### The six instructions: the record, the cursor, and nothing else -/

/-- `MOV r/m, reg` completes wherever its bytes fit: destination the `rm` operand, source `REG(w, reg)`,
no hint; the cursor advances by the length; nothing else changes (R89). -/
def Obligations.MovRmRegCompletes : Prop :=
  ∀ (w : Width) (reg : Code3) (rm : RmMode) (s : State), s.pos + (2 + dlen rm.mod rm.rm) ≤ s.n →
    exec (.movRmReg w reg rm) s = .next (answered s (2 + dlen rm.mod rm.rm)
      { mnemonic := .mov, dst := RmMode.operand rm w, src := .reg ⟨w, reg⟩, hint := .none })

/-- `MOV reg, r/m` completes wherever its bytes fit: destination `REG(w, reg)`, source the `rm`
operand (R90). -/
def Obligations.MovRegRmCompletes : Prop :=
  ∀ (w : Width) (reg : Code3) (rm : RmMode) (s : State), s.pos + (2 + dlen rm.mod rm.rm) ≤ s.n →
    exec (.movRegRm w reg rm) s = .next (answered s (2 + dlen rm.mod rm.rm)
      { mnemonic := .mov, dst := .reg ⟨w, reg⟩, src := RmMode.operand rm w, hint := .none })

/-- `MOV reg, imm` completes wherever its `2 + w` bytes fit (R91). -/
def Obligations.MovRegImmCompletes : Prop :=
  ∀ (w : Width) (r : Code3) (v : Word) (s : State), s.pos + (if w = .byte then 2 else 3) ≤ s.n →
    exec (.movRegImm w r v) s = .next (answered s (if w = .byte then 2 else 3)
      { mnemonic := .mov, dst := .reg ⟨w, r⟩, src := .imm v w, hint := .none })

/-- `MOV r/m, imm` completes wherever its bytes fit, whatever the ignored field: destination the `rm`
operand (memory, or a register for mode 11 by D7), source the immediate, hint by width (R92, R93). -/
def Obligations.MovRmImmCompletes : Prop :=
  ∀ (w : Width) (ign : Code3) (rm : RmMode) (v : Word) (s : State),
    s.pos + (2 + dlen rm.mod rm.rm + (if w = .byte then 1 else 2)) ≤ s.n →
    exec (.movRmImm w ign rm v) s =
      .next (answered s (2 + dlen rm.mod rm.rm + (if w = .byte then 1 else 2))
        { mnemonic := .mov, dst := RmMode.operand rm w, src := .imm v w,
          hint := if w = .byte then .byte else .word })

/-- `MOV acc, [addr]` completes wherever its 3 bytes fit: destination `AL` or `AX` (R94; the sense of the
direction bit is D5). -/
def Obligations.MovAccMemCompletes : Prop :=
  ∀ (w : Width) (a : Word) (s : State), s.pos + 3 ≤ s.n →
    exec (.movAccMem w a) s = .next (answered s 3
      { mnemonic := .mov, dst := .reg ⟨w, 0b000#3⟩, src := .mem (.direct a), hint := .none })

/-- `MOV [addr], acc` completes wherever its 3 bytes fit: destination the direct address (R95; the sense
of the direction bit is D5). -/
def Obligations.MovMemAccCompletes : Prop :=
  ∀ (w : Width) (a : Word) (s : State), s.pos + 3 ≤ s.n →
    exec (.movMemAcc w a) s = .next (answered s 3
      { mnemonic := .mov, dst := .mem (.direct a), src := .reg ⟨w, 0b000#3⟩, hint := .none })

/-- The operand of each addressing mode, with the value of its displacement (R65 to R69). -/
def Obligations.RmOperandForms : Prop :=
  ∀ w : Width,
    (∀ rm, RmMode.operand (.reg rm) w = .reg ⟨w, rm⟩) ∧
    (∀ rm, RmMode.operand (.base rm) w = .mem (.base rm 0 0)) ∧
    (∀ a, RmMode.operand (.direct a) w = .mem (.direct a)) ∧
    (∀ rm (b : Byte), RmMode.operand (.disp8 rm b) w = .mem (.base rm b.toInt 1)) ∧
    (∀ rm (v : Word), RmMode.operand (.disp16 rm v) w = .mem (.base rm v.toNat 2))

/-- An instruction whose bytes run past the buffer takes `TRUNCATED` at its first field that does: the
cursor is where that field begins, no record is answered, and the latches are those of R119
(R114, R118; the reported offset is D9's parameter). -/
def Obligations.ExecTruncatesAtFirstMissingField : Prop :=
  ∀ (i : Instr) (s : State), s.pos < s.n → s.n < s.pos + i.length →
    ∃ k, ∃ hk : k < i.fields.length,
      s.pos + 1 + (i.fields.take k).sum ≤ s.n ∧
      s.n < s.pos + 1 + (i.fields.take k).sum + i.fields[k] ∧
      exec i s = .next (truncatedAt s i.opcode (s.pos + 1 + (i.fields.take k).sum))

/-- Frame of all six instructions: no byte of the buffer, no length; and where the instruction fits, no
status and no error latch. The cursor never moves back and stays in the buffer (R28, R96). -/
def Obligations.ExecFrame : Prop :=
  ∀ (i : Instr) (s t : State), exec i s = .next t →
    t.buf = s.buf ∧ t.n = s.n ∧ (∀ a, t.byteAt a = s.byteAt a) ∧
    s.pos < t.pos ∧ t.pos ≤ t.n ∧
    (s.pos + i.length ≤ s.n →
      t.status = s.status ∧ t.errKind = s.errKind ∧ t.errOffset = s.errOffset ∧
      t.errByte = s.errByte)

/-- The ModRM `reg` field of `MOV r/m, imm` is ignored: its 8 values decode to the same operands and act
alike (R59). -/
def Obligations.IgnoredRegFieldChangesNothing : Prop :=
  (∀ (w : Width) (a b : Code3) (rm : RmMode) (v : Word) (s : State),
    exec (.movRmImm w a rm v) s = exec (.movRmImm w b rm v) s) ∧
  (∀ (op : Byte) (mod : BitVec 2) (a b rm : Code3) (bs : List Byte), classify op = .immMem →
    (∀ w m v rest, decode (op :: modRM mod a rm :: bs) = .instr (.movRmImm w a m v) rest →
      decode (op :: modRM mod b rm :: bs) = .instr (.movRmImm w b m v) rest) ∧
    (∀ used, decode (op :: modRM mod a rm :: bs) = .truncated op used →
      decode (op :: modRM mod b rm :: bs) = .truncated op used))

/-- The accumulator forms answer the record of the register/memory forms with a direct address, for
the same address and width (R94, R95 corner cases; D5). -/
def Obligations.AccumulatorFormMatchesDirectForm : Prop :=
  ∀ (w : Width) (a : Word),
    recordOf (.movAccMem w a) = recordOf (.movRegRm w 0b000#3 (.direct a)) ∧
    recordOf (.movMemAcc w a) = recordOf (.movRmReg w 0b000#3 (.direct a))

/-! ### The request -/

/-- When the bytes at the cursor decode to an instruction, a step of a live pass is that
instruction's meaning: nothing is added around it, the meaning moves the cursor itself. -/
def Obligations.StepRunsDecodedInstruction : Prop :=
  ∀ (s : State) (i : Instr) (rest : List Byte), s.status = .ready → s.pos < s.n →
    decode s.window = .instr i rest → step s = exec i s

/-- When the bytes at the cursor are a well-formed instruction's as far as the buffer goes, a step of a
live pass is that instruction's meaning, the cut-short case included. -/
def Obligations.StepRunsEncodedInstruction : Prop :=
  ∀ (i : Instr) (s : State), i.wf = true → s.status = .ready → s.pos < s.n →
    (∀ k, k < i.length → s.pos + k < s.n →
      s.buf.read (s.pos + k) = (encode i).getD k 0x00#8) →
    step s = exec i s

/-- The step, which decodes to an `Instr` and runs its meaning, is `decode_one` as the spec's pseudocode
reads through the cursor (R86; the request interface is D1, D2, D10, D11). -/
def Obligations.StepIsDecodeOne : Prop :=
  ∀ s : State, s.pos ≤ s.n →
    step s = .next { (decodeOne s).1 with resp := some (decodeOne s).2 }

/-- A step stops only in a live state whose cursor is past the buffer, which R11 excludes: every
request of a legal state is answered (R37). The fault is the model's (log entry 7). -/
def Obligations.StepStopsOnlyPastTheBuffer : Prop :=
  ∀ s : State,
    (s.pos ≤ s.n → ∃ t, step s = .next t ∧ t.resp.isSome = true) ∧
    (s.status = .ready → s.n < s.pos → step s = .fault .noOpcodeByte)

/-- An opcode byte that matches no pattern is reported before any further byte is read: the byte is
consumed and carried; 230 bytes are such (R115). The count rests on D3 and D4; the offset is the same for
both values of D9's parameter. -/
def Obligations.UnsupportedOpcodeEntry : Prop :=
  (∀ s : State, s.status = .ready → s.pos < s.n → classify (s.buf.read s.pos) = .none →
    step s = .next { s with pos := s.pos + 1, status := .error, errKind := .unsupportedOpcode,
                            errOffset := s.pos, errByte := s.buf.read s.pos,
                            resp := some (.error .unsupportedOpcode s.pos (s.buf.read s.pos)) }) ∧
  ((List.range 256).filter fun k => classify (BitVec.ofNat 8 k) == .none).length = 230

/-- Class `RM_REG` from its bytes (R89, R90): fields `d = op[1]`, `w = op[0]`, `mod = M[7:6]`,
`reg = M[5:3]`, `rm = M[2:0]`; `d = 1` makes the register the destination, `d = 0` the `rm` operand; a
missing ModRM byte or displacement is `TRUNCATED` where its read began. -/
def Obligations.RegMemBytesDecode : Prop :=
  ∀ s : State, s.status = .ready → s.pos < s.n →
    ∀ op, op = s.buf.read s.pos → op &&& 0xFC#8 = 0x88#8 →
    (s.pos + 1 = s.n → step s = .next (truncatedAt s op (s.pos + 1))) ∧
    (s.pos + 1 < s.n → ∀ m w, m = s.buf.read (s.pos + 1) → w = widthOf (op.getLsbD 0) →
      (∀ o t, resolve (m.extractLsb' 6 2) (m.extractLsb' 0 3) w { s with pos := s.pos + 2 }
          = .ok o t →
        step s = .next { t with resp := some (.instr (
          if op.getLsbD 1 then
            { mnemonic := .mov, dst := .reg ⟨w, m.extractLsb' 3 3⟩, src := o, hint := .none }
          else
            { mnemonic := .mov, dst := o, src := .reg ⟨w, m.extractLsb' 3 3⟩, hint := .none })) }) ∧
      (∀ t, resolve (m.extractLsb' 6 2) (m.extractLsb' 0 3) w { s with pos := s.pos + 2 }
          = .exhausted t → step s = .next (truncatedAt s op (s.pos + 2))))

/-- Class `IMM_REG` from its bytes (R91): `w = op[3]`, `r = op[2:0]`; a byte immediate is zero-extended,
a word immediate is little-endian; a single byte left of a word is not consumed. -/
def Obligations.ImmRegBytesDecode : Prop :=
  ∀ s : State, s.status = .ready → s.pos < s.n →
    ∀ op, op = s.buf.read s.pos → op &&& 0xF0#8 = 0xB0#8 →
    (op.getLsbD 3 = false →
      (s.pos + 1 < s.n → ∃ v : Word, v.toNat = (s.buf.read (s.pos + 1)).toNat ∧
        step s = .next (answered s 2 { mnemonic := .mov, dst := .reg ⟨.byte, op.extractLsb' 0 3⟩,
                                       src := .imm v .byte, hint := .none })) ∧
      (s.pos + 1 = s.n → step s = .next (truncatedAt s op (s.pos + 1)))) ∧
    (op.getLsbD 3 = true →
      (s.pos + 2 < s.n → ∃ v : Word,
        v.toNat = (s.buf.read (s.pos + 2)).toNat * 256 + (s.buf.read (s.pos + 1)).toNat ∧
        step s = .next (answered s 3 { mnemonic := .mov, dst := .reg ⟨.word, op.extractLsb' 0 3⟩,
                                       src := .imm v .word, hint := .none })) ∧
      (s.n ≤ s.pos + 2 → step s = .next (truncatedAt s op (s.pos + 1))))

/-- Class `IMM_MEM` from its bytes (R92, R93): `w = op[0]`; the destination is what the ModRM byte resolves
to, the immediate is read after it, the hint is the width's. The 7-bit pattern is D3; the register
destination is D7. -/
def Obligations.ImmMemBytesDecode : Prop :=
  ∀ s : State, s.status = .ready → s.pos < s.n →
    ∀ op, op = s.buf.read s.pos → op &&& 0xFE#8 = 0xC6#8 →
    (s.pos + 1 = s.n → step s = .next (truncatedAt s op (s.pos + 1))) ∧
    (s.pos + 1 < s.n → ∀ m w, m = s.buf.read (s.pos + 1) → w = widthOf (op.getLsbD 0) →
      (∀ o t, resolve (m.extractLsb' 6 2) (m.extractLsb' 0 3) w { s with pos := s.pos + 2 }
          = .ok o t →
        (w = .byte → t.pos < t.n → ∃ v : Word, v.toNat = (s.buf.read t.pos).toNat ∧
          step s = .next (answered t 1
            { mnemonic := .mov, dst := o, src := .imm v .byte, hint := .byte })) ∧
        (w = .byte → t.pos = t.n → step s = .next (truncatedAt s op t.pos)) ∧
        (w = .word → t.pos + 1 < t.n → ∃ v : Word,
          v.toNat = (s.buf.read (t.pos + 1)).toNat * 256 + (s.buf.read t.pos).toNat ∧
          step s = .next (answered t 2
            { mnemonic := .mov, dst := o, src := .imm v .word, hint := .word })) ∧
        (w = .word → t.n ≤ t.pos + 1 → step s = .next (truncatedAt s op t.pos))) ∧
      (∀ t, resolve (m.extractLsb' 6 2) (m.extractLsb' 0 3) w { s with pos := s.pos + 2 }
          = .exhausted t → step s = .next (truncatedAt s op (s.pos + 2))))

/-- Class `ACC_MEM` from its bytes (R94, R95): a 16-bit address whatever the width; `op[1] = 0` makes the
accumulator the destination; a single byte left is not consumed. Pattern and sense are D4 and D5. -/
def Obligations.AccMemBytesDecode : Prop :=
  ∀ s : State, s.status = .ready → s.pos < s.n →
    ∀ op, op = s.buf.read s.pos → op &&& 0xFC#8 = 0xA0#8 →
    (s.pos + 2 < s.n → ∃ a : Word,
      a.toNat = (s.buf.read (s.pos + 2)).toNat * 256 + (s.buf.read (s.pos + 1)).toNat ∧
      step s = .next (answered s 3 (
        if op.getLsbD 1 then
          { mnemonic := .mov, dst := .mem (.direct a),
            src := .reg ⟨widthOf (op.getLsbD 0), 0b000#3⟩, hint := .none }
        else
          { mnemonic := .mov, dst := .reg ⟨widthOf (op.getLsbD 0), 0b000#3⟩,
            src := .mem (.direct a), hint := .none }))) ∧
    (s.n ≤ s.pos + 2 → step s = .next (truncatedAt s op (s.pos + 1)))

/-- Requests that decode nothing: in `ERROR` the latched error is answered again, in `END` `End` is, and
in neither does anything else change; a live pass with `POS = N` ends (D10, D11). -/
def Obligations.RequestsThatDecodeNothing : Prop :=
  ∀ s : State,
    (s.status = .error → step s =
      .next { s with resp := some (.error s.errKind s.errOffset s.errByte) }) ∧
    (s.status = .ended → step s = .next { s with resp := some .ended }) ∧
    (s.status = .ready → s.pos = s.n →
      step s = .next { s with status := .ended, resp := some .ended })

/-- An error response of a live pass: what it says is what is latched, the byte is the opcode byte, and the
cursor and the offset are those of its kind (R26, R116, R119; derived there and D9). -/
def Obligations.ErrorEntryLatches : Prop :=
  ∀ (s t : State) (kind : ErrKind) (offset : Nat) (byte : Byte), s.status = .ready →
    step s = .next t → t.resp = some (.error kind offset byte) →
    t.status = .error ∧ t.errKind = kind ∧ t.errOffset = offset ∧ t.errByte = byte ∧
    byte = s.buf.read s.pos ∧ s.pos < s.n ∧
    ((kind = .unsupportedOpcode ∧ classify byte = .none ∧ t.pos = s.pos + 1 ∧ offset = s.pos) ∨
     (kind = .truncated ∧ classify byte ≠ .none ∧ s.pos < t.pos ∧ t.pos ≤ s.n ∧
       offset = reportedOffset s.pos t.pos))

/-- A record answered by a live pass: the cursor advances by the instruction's length, 2 to 6 bytes by
class and within the buffer, and no latch changes (R12, R55, R133; derived there). -/
def Obligations.RecordAdvancesByLength : Prop :=
  ∀ (s t : State) (r : Record), s.status = .ready → step s = .next t → t.resp = some (.instr r) →
    t.pos ≤ s.n ∧ s.pos + 2 ≤ t.pos ∧ t.pos ≤ s.pos + 6 ∧
    t.status = .ready ∧ t.errKind = s.errKind ∧ t.errOffset = s.errOffset ∧
    t.errByte = s.errByte ∧
    ∀ op m, op = s.buf.read s.pos → m = s.buf.read (s.pos + 1) →
      match classify op with
      | .immReg => t.pos = s.pos + 2 + (op.getLsbD 3).toNat
      | .accMem => t.pos = s.pos + 3
      | .rmReg => t.pos = s.pos + 2 + dlen (m.extractLsb' 6 2) (m.extractLsb' 0 3)
      | .immMem =>
        t.pos = s.pos + 3 + dlen (m.extractLsb' 6 2) (m.extractLsb' 0 3) + (op.getLsbD 0).toNat
      | .none => False

/-- What a step may write: never the buffer or its length; the cursor only forwards and not past the
buffer; the error latches only when it takes an error in a live pass (R11, R28, R96). -/
def Obligations.StepWritesOnlyCursorAndLatches : Prop :=
  ∀ s t : State, step s = .next t →
    t.buf = s.buf ∧ t.n = s.n ∧ (∀ a, t.byteAt a = s.byteAt a) ∧
    s.pos ≤ t.pos ∧ (s.pos ≤ s.n → t.pos ≤ t.n) ∧
    (s.status ≠ .ready → t.pos = s.pos ∧ t.status = s.status) ∧
    (s.status ≠ .ready ∨ t.status ≠ .error →
      t.errKind = s.errKind ∧ t.errOffset = s.errOffset ∧ t.errByte = s.errByte)

/-! ### Invariants, reset, passes -/

/-- Every step keeps the invariants of R16 and R14, the canonical form of the buffer, and the legality of
the answered record (R20 to R22, R99). R16 is derived in the spec; the response's part is log entry
1's. -/
def Obligations.StepKeepsInvariant : Prop :=
  ∀ s t : State, s.Inv → step s = .next t → t.Inv

/-- The state after reset is legal, live and at offset 0, with no error; the next request of it ends
(R128 and R129, by D12; the empty buffer is log entry 2's). -/
def Obligations.ResetStateIsLegal : Prop :=
  State.reset.Inv ∧ State.reset.pos = 0 ∧ State.reset.status = .ready ∧
  State.reset.errKind = .none ∧ State.reset.errOffset = 0 ∧ State.reset.errByte = 0x00#8 ∧
  step State.reset = .next { State.reset with status := .ended, resp := some .ended }

/-- Reset of any block leaves `BUF` and `N`, sets every other element of R10's tuple to its value, is the way
out of `END` and `ERROR`, and gives a legal state whenever the buffer is legal (R128, by D12). That it also
clears `resp`, which is no element of the spec's state, is the model's own choice (log entry 1). -/
def Obligations.ResetRestoresEveryBlock : Prop :=
  ∀ s : State, hostAct .reset s =
    .next { buf := s.buf, n := s.n, pos := 0, status := .ready, errKind := .none, errOffset := 0,
            errByte := 0x00#8, resp := none } ∧
    (s.bufLegal → ∀ t, hostAct .reset s = .next t → t.Inv)

/-- A pass ends: within `floor(N / 2) + 1` requests over the bytes left its last response is `End` or
`Error`, every one before it is a record, there are at most `floor(N / 2)` of those, and more requests
add nothing (R133, derived there). -/
def Obligations.PassEndsWithinBound : Prop :=
  ∀ s : State, s.status = .ready → s.pos ≤ s.n →
    (∃ (rs : List Response) (r : Response), (runPass (passBound (s.n - s.pos)) s).1 = rs ++ [r] ∧
      r.final = true ∧ (∀ x ∈ rs, x.final = false) ∧ rs.length ≤ (s.n - s.pos) / 2) ∧
    (∀ k, passBound (s.n - s.pos) ≤ k → runPass k s = runPass (passBound (s.n - s.pos)) s)

/-- A pass ends with `End` exactly when the buffer splits into complete instructions; then it answers their
records in order and stops at the end of the buffer (R131, derived there). -/
def Obligations.PassEndsCleanlyIffBytesSplit : Prop :=
  ∀ bs : List Byte,
    ((passOver bs).1.getLast? = some .ended ↔
      ∃ is : List Instr, (∀ i ∈ is, i.wf = true) ∧ bs = is.flatMap encode) ∧
    (∀ is : List Instr, (∀ i ∈ is, i.wf = true) → bs = is.flatMap encode →
      (passOver bs).1 = is.map (fun i => Response.instr (recordOf i)) ++ [.ended] ∧
      (passOver bs).2.pos = bs.length ∧ (passOver bs).2.status = .ended)

/-- Otherwise a pass ends with the error of the first instruction that cannot be decoded, after one record
for each instruction before it (R131, derived there; the offset is D9's parameter). -/
def Obligations.PassReportsFirstFailure : Prop :=
  ∀ (is : List Instr) (rest : List Byte), (∀ i ∈ is, i.wf = true) → ∀ start,
    start = (is.flatMap encode).length →
    (∀ op, decode rest = .unsupported op →
      (passOver (is.flatMap encode ++ rest)).1 =
        is.map (fun i => Response.instr (recordOf i)) ++ [.error .unsupportedOpcode start op]) ∧
    (∀ op used, decode rest = .truncated op used →
      (passOver (is.flatMap encode ++ rest)).1 =
        is.map (fun i => Response.instr (recordOf i)) ++
          [.error .truncated (reportedOffset start (start + used)) op])

/-- The responses of a pass are a function of the buffer's bytes alone (and of `ERR_OFFSET_MODE`, one value
for the machine): two blocks with the same bytes, whatever else they hold, answer alike after reset
(R139). -/
def Obligations.PassDependsOnBufferAlone : Prop :=
  ∀ (k : Nat) (s t : State), s.n = t.n → (∀ a, a < s.n → s.buf.read a = t.buf.read a) →
    (runPass k s.resetBlock).1 = (runPass k t.resetBlock).1

/-- What the host may not do is refused by name: a buffer placed while a pass is live, a buffer longer than
`N_MAX`, overlapping requests, a write of `POS`, `STATUS` or `ERR_*`; a buffer within the limit is placed
when no pass is live (R15, R134, R135; D13, D14, D21; log entry 8). -/
def Obligations.HostMisuseIsRefused : Prop :=
  ∀ (s : State) (bs : List Byte),
    (s.status = .ready → hostAct (.place bs) s = .refused .bufferChangedWhileLive) ∧
    (s.status ≠ .ready → hostAct (.place bs) s =
      if bs.length ≤ Config.nMax then .next (s.place bs) else .refused .bufferTooLong) ∧
    hostAct .overlappingRequest s = .refused .overlappingRequests ∧
    hostAct .writeBlockState s = .refused .hostWroteBlockState

/-- A placed buffer reads back byte for byte, in canonical form, and holds nothing past its end; nothing but
`BUF` and `N` changes (R28, R29, R130; the form is log entry 3's, that `POS` may then lie past `N` until
reset is log entry 18's). -/
def Obligations.PlacedBufferReadsBack : Prop :=
  ∀ (s : State) (bs : List Byte),
    (s.place bs).bytes = bs ∧ (s.place bs).n = bs.length ∧ (s.place bs).bufLegal ∧
    (∀ a, bs.length ≤ a → (s.place bs).byteAt a = none) ∧
    (s.place bs).pos = s.pos ∧ (s.place bs).status = s.status ∧
    (s.place bs).errKind = s.errKind ∧ (s.place bs).errOffset = s.errOffset ∧
    (s.place bs).errByte = s.errByte

/-! ### The formatter -/

/-- The spellings of the sixteen registers (R101) and of the eight base expressions (R102; `bp` alone is
D6's). -/
def Obligations.RegisterAndBaseSpellings : Prop :=
  (List.range 8).map (fun k => (RegId.name ⟨.byte, BitVec.ofNat 3 k⟩).text) =
    [['a', 'l'], ['c', 'l'], ['d', 'l'], ['b', 'l'], ['a', 'h'], ['c', 'h'], ['d', 'h'], ['b', 'h']] ∧
  (List.range 8).map (fun k => (RegId.name ⟨.word, BitVec.ofNat 3 k⟩).text) =
    [['a', 'x'], ['c', 'x'], ['d', 'x'], ['b', 'x'], ['s', 'p'], ['b', 'p'], ['s', 'i'], ['d', 'i']] ∧
  (List.range 8).map (fun k => baseText (BitVec.ofNat 3 k)) =
    [['b', 'x', ' ', '+', ' ', 's', 'i'], ['b', 'x', ' ', '+', ' ', 'd', 'i'],
     ['b', 'p', ' ', '+', ' ', 's', 'i'], ['b', 'p', ' ', '+', ' ', 'd', 'i'],
     ['s', 'i'], ['d', 'i'], ['b', 'p'], ['b', 'x']]

/-- The forms of a line: zero, positive and negative displacement, direct address, immediate into a
register and into memory (R100, R103 to R108), and one line per record of a pass (R110). A word
displacement is never negative; a negative byte displacement has magnitude 1 to 128. -/
def Obligations.RenderedLineForms : Prop :=
  (∀ rm n, eaText (.base rm 0 n) = ['['] ++ baseText rm ++ [']']) ∧
  (∀ rm (d : Int) n, 0 < d →
    eaText (.base rm d n) = ['['] ++ baseText rm ++ [' ', '+', ' '] ++ decimal d.natAbs ++ [']']) ∧
  (∀ rm (d : Int) n, d < 0 →
    eaText (.base rm d n) = ['['] ++ baseText rm ++ [' ', '-', ' '] ++ decimal d.natAbs ++ [']']) ∧
  (∀ v : Word, 0 ≤ disp16Value v) ∧
  (∀ b : Byte, disp8Value b < 0 → 1 ≤ (disp8Value b).natAbs ∧ (disp8Value b).natAbs ≤ 128) ∧
  (∀ a : Word, eaText (.direct a) = ['['] ++ decimal a.toNat ++ [']']) ∧
  (∀ (x : RegId) (v : Word) (w : Width) (h : SizeHint),
    render { mnemonic := .mov, dst := .reg x, src := .imm v w, hint := h } =
      ['m', 'o', 'v', ' '] ++ x.name.text ++ [',', ' '] ++ decimal v.toNat) ∧
  (∀ (ea : EffAddr) (v : Word) (w : Width),
    render { mnemonic := .mov, dst := .mem ea, src := .imm v w, hint := .byte } =
      ['m', 'o', 'v', ' '] ++ eaText ea ++ [',', ' ', 'b', 'y', 't', 'e', ' '] ++ decimal v.toNat ∧
    render { mnemonic := .mov, dst := .mem ea, src := .imm v w, hint := .word } =
      ['m', 'o', 'v', ' '] ++ eaText ea ++ [',', ' ', 'w', 'o', 'r', 'd', ' '] ++ decimal v.toNat) ∧
  (∀ (dst src : Operand) (h : SizeHint), (∀ v w, src ≠ .imm v w) →
    render { mnemonic := .mov, dst := dst, src := src, hint := h } =
      ['m', 'o', 'v', ' '] ++ operandText dst ++ [',', ' '] ++ operandText src) ∧
  (∀ rs : List Record, ∀ r : Response, r.final = true →
    passLines (rs.map Response.instr ++ [r]) = rs.map render)

/-- Decimal numbers: digits `0` to `9` only, most significant first, no leading zero, and the value they
spell is the number (R109, derived there). -/
def Obligations.DecimalHasNoLeadingZeros : Prop :=
  ∀ n : Nat,
    decimal n ≠ [] ∧ (∀ c ∈ decimal n, 48 ≤ c.toNat ∧ c.toNat ≤ 57) ∧
    (decimal n).foldl (fun a c => 10 * a + (c.toNat - 48)) 0 = n ∧
    (n ≠ 0 → (decimal n).head? ≠ some '0') ∧ decimal 0 = ['0']

/-! ### Several blocks -/

/-- A request to one of several blocks is a step of that block and leaves every other block as it was
(R126). -/
def Obligations.RequestTouchesOneBlock : Prop :=
  ∀ (k : Nat) (blocks after : List State), requestTo k blocks = .next after →
    after.length = blocks.length ∧ (∀ j, j ≠ k → after[j]? = blocks[j]?) ∧
    ∃ s t, blocks[k]? = some s ∧ step s = .next t ∧ after[k]? = some t
end

