-- ==== Sys2Proof/Laws/State.lean ====
section
/-! SUPPORT. One lemma per field per state update, each true by definition. -/

namespace Sys2Proof.Machine

@[simp] theorem State.advance_buf (s : State) (k : Nat) :
    (s.advance k).buf = s.buf := rfl
@[simp] theorem State.advance_n (s : State) (k : Nat) :
    (s.advance k).n = s.n := rfl
@[simp] theorem State.advance_pos (s : State) (k : Nat) :
    (s.advance k).pos = s.pos + k := rfl
@[simp] theorem State.advance_status (s : State) (k : Nat) :
    (s.advance k).status = s.status := rfl
@[simp] theorem State.advance_errKind (s : State) (k : Nat) :
    (s.advance k).errKind = s.errKind := rfl
@[simp] theorem State.advance_errOffset (s : State) (k : Nat) :
    (s.advance k).errOffset = s.errOffset := rfl
@[simp] theorem State.advance_errByte (s : State) (k : Nat) :
    (s.advance k).errByte = s.errByte := rfl
@[simp] theorem State.advance_resp (s : State) (k : Nat) :
    (s.advance k).resp = s.resp := rfl

@[simp] theorem State.respond_buf (s : State) (r : Response) :
    (s.respond r).buf = s.buf := rfl
@[simp] theorem State.respond_n (s : State) (r : Response) :
    (s.respond r).n = s.n := rfl
@[simp] theorem State.respond_pos (s : State) (r : Response) :
    (s.respond r).pos = s.pos := rfl
@[simp] theorem State.respond_status (s : State) (r : Response) :
    (s.respond r).status = s.status := rfl
@[simp] theorem State.respond_errKind (s : State) (r : Response) :
    (s.respond r).errKind = s.errKind := rfl
@[simp] theorem State.respond_errOffset (s : State) (r : Response) :
    (s.respond r).errOffset = s.errOffset := rfl
@[simp] theorem State.respond_errByte (s : State) (r : Response) :
    (s.respond r).errByte = s.errByte := rfl
@[simp] theorem State.respond_resp (s : State) (r : Response) :
    (s.respond r).resp = some r := rfl

@[simp] theorem State.latchError_buf (s : State) (kind : ErrKind) (start : Nat) (op : Byte) (p : Nat) :
    (s.latchError kind start op p).buf = s.buf := rfl
@[simp] theorem State.latchError_n (s : State) (kind : ErrKind) (start : Nat) (op : Byte) (p : Nat) :
    (s.latchError kind start op p).n = s.n := rfl
@[simp] theorem State.latchError_pos (s : State) (kind : ErrKind) (start : Nat) (op : Byte) (p : Nat) :
    (s.latchError kind start op p).pos = s.pos := rfl
@[simp] theorem State.latchError_status (s : State) (kind : ErrKind) (start : Nat) (op : Byte) (p : Nat) :
    (s.latchError kind start op p).status = .error := rfl
@[simp] theorem State.latchError_errKind (s : State) (kind : ErrKind) (start : Nat) (op : Byte) (p : Nat) :
    (s.latchError kind start op p).errKind = kind := rfl
@[simp] theorem State.latchError_errOffset (s : State) (kind : ErrKind) (start : Nat) (op : Byte) (p : Nat) :
    (s.latchError kind start op p).errOffset = errOffsetOf Config.errOffsetMode start p := rfl
@[simp] theorem State.latchError_errByte (s : State) (kind : ErrKind) (start : Nat) (op : Byte) (p : Nat) :
    (s.latchError kind start op p).errByte = op := rfl
@[simp] theorem State.latchError_resp (s : State) (kind : ErrKind) (start : Nat) (op : Byte) (p : Nat) :
    (s.latchError kind start op p).resp = s.resp := rfl

@[simp] theorem State.fail_buf (s : State) (kind : ErrKind) (start : Nat) (op : Byte) (p : Nat) :
    (s.fail kind start op p).buf = s.buf := rfl
@[simp] theorem State.fail_n (s : State) (kind : ErrKind) (start : Nat) (op : Byte) (p : Nat) :
    (s.fail kind start op p).n = s.n := rfl
@[simp] theorem State.fail_pos (s : State) (kind : ErrKind) (start : Nat) (op : Byte) (p : Nat) :
    (s.fail kind start op p).pos = s.pos := rfl
@[simp] theorem State.fail_status (s : State) (kind : ErrKind) (start : Nat) (op : Byte) (p : Nat) :
    (s.fail kind start op p).status = .error := rfl
@[simp] theorem State.fail_errKind (s : State) (kind : ErrKind) (start : Nat) (op : Byte) (p : Nat) :
    (s.fail kind start op p).errKind = kind := rfl
@[simp] theorem State.fail_errOffset (s : State) (kind : ErrKind) (start : Nat) (op : Byte) (p : Nat) :
    (s.fail kind start op p).errOffset = errOffsetOf Config.errOffsetMode start p := rfl
@[simp] theorem State.fail_errByte (s : State) (kind : ErrKind) (start : Nat) (op : Byte) (p : Nat) :
    (s.fail kind start op p).errByte = op := rfl
@[simp] theorem State.fail_resp (s : State) (kind : ErrKind) (start : Nat) (op : Byte) (p : Nat) :
    (s.fail kind start op p).resp = some (.error kind (errOffsetOf Config.errOffsetMode start p) op) := rfl

@[simp] theorem State.finish_buf (s : State) :
    s.finish.buf = s.buf := rfl
@[simp] theorem State.finish_n (s : State) :
    s.finish.n = s.n := rfl
@[simp] theorem State.finish_pos (s : State) :
    s.finish.pos = s.pos := rfl
@[simp] theorem State.finish_status (s : State) :
    s.finish.status = .ended := rfl
@[simp] theorem State.finish_errKind (s : State) :
    s.finish.errKind = s.errKind := rfl
@[simp] theorem State.finish_errOffset (s : State) :
    s.finish.errOffset = s.errOffset := rfl
@[simp] theorem State.finish_errByte (s : State) :
    s.finish.errByte = s.errByte := rfl
@[simp] theorem State.finish_resp (s : State) :
    s.finish.resp = some .ended := rfl

@[simp] theorem State.resetBlock_buf (s : State) :
    s.resetBlock.buf = s.buf := rfl
@[simp] theorem State.resetBlock_n (s : State) :
    s.resetBlock.n = s.n := rfl
@[simp] theorem State.resetBlock_pos (s : State) :
    s.resetBlock.pos = 0 := rfl
@[simp] theorem State.resetBlock_status (s : State) :
    s.resetBlock.status = .ready := rfl
@[simp] theorem State.resetBlock_errKind (s : State) :
    s.resetBlock.errKind = .none := rfl
@[simp] theorem State.resetBlock_errOffset (s : State) :
    s.resetBlock.errOffset = 0 := rfl
@[simp] theorem State.resetBlock_errByte (s : State) :
    s.resetBlock.errByte = 0x00#8 := rfl
@[simp] theorem State.resetBlock_resp (s : State) :
    s.resetBlock.resp = Option.none := rfl

@[simp] theorem State.place_buf (s : State) (bs : List Byte) :
    (s.place bs).buf = Memory.writeBytes [] 0 bs := rfl
@[simp] theorem State.place_n (s : State) (bs : List Byte) :
    (s.place bs).n = bs.length := rfl
@[simp] theorem State.place_pos (s : State) (bs : List Byte) :
    (s.place bs).pos = s.pos := rfl
@[simp] theorem State.place_status (s : State) (bs : List Byte) :
    (s.place bs).status = s.status := rfl
@[simp] theorem State.place_errKind (s : State) (bs : List Byte) :
    (s.place bs).errKind = s.errKind := rfl
@[simp] theorem State.place_errOffset (s : State) (bs : List Byte) :
    (s.place bs).errOffset = s.errOffset := rfl
@[simp] theorem State.place_errByte (s : State) (bs : List Byte) :
    (s.place bs).errByte = s.errByte := rfl
@[simp] theorem State.place_resp (s : State) (bs : List Byte) :
    (s.place bs).resp = s.resp := rfl

end Sys2Proof.Machine
end

