-- ==== Sys2Proof/Laws/Cursor.lean ====
section
/-! SUPPORT. Everything the cursor's operations and the shared routine can do, once each. -/

namespace Sys2Proof.Machine

@[simp] theorem State.advance_zero (s : State) : s.advance 0 = s := rfl

@[simp] theorem State.advance_advance (s : State) (j k : Nat) :
    (s.advance j).advance k = s.advance (j + k) := by
  simp [State.advance, Nat.add_assoc]

/-- A read of `k` bytes fails exactly when fewer are left. -/
theorem State.consume_eq (s : State) (k : Nat) :
    s.consume k = if s.n - s.pos < k then Option.none else some (s.advance k) := rfl

theorem State.consume_of_fits {s : State} {k : Nat} (h : s.pos + k ≤ s.n) :
    s.consume k = some (s.advance k) := by
  rw [consume_eq, if_neg (by omega)]

theorem State.consume_of_short {s : State} {k : Nat} (hp : s.pos ≤ s.n) (h : s.n < s.pos + k) :
    s.consume k = Option.none := by
  rw [consume_eq, if_pos (by omega)]

/-- `ReadU8` in one equation. -/
theorem readU8_eq (s : State) :
    readU8 s = if s.n - s.pos < 1 then .exhausted s
      else .ok (s.buf.read s.pos) (s.advance 1) := by
  unfold readU8 State.consume
  by_cases h : s.n - s.pos < 1 <;> simp [h]

/-- `ReadU16LE` in one equation. -/
theorem readU16LE_eq (s : State) :
    readU16LE s = if s.n - s.pos < 2 then .exhausted s
      else .ok (joinLE (s.buf.read s.pos) (s.buf.read (s.pos + 1))) (s.advance 2) := by
  unfold readU16LE State.consume
  by_cases h : s.n - s.pos < 2 <;> simp [h]

/-- `ReadS8` in one equation. -/
theorem readS8_eq (s : State) :
    readS8 s = if s.n - s.pos < 1 then .exhausted s
      else .ok (sext16 (s.buf.read s.pos)) (s.advance 1) := by
  unfold readS8
  rw [readU8_eq]
  split <;> rfl

theorem readU8_of_fits {s : State} (h : s.pos < s.n) :
    readU8 s = .ok (s.buf.read s.pos) (s.advance 1) := by
  rw [readU8_eq, if_neg (by omega)]

theorem readU8_of_short {s : State} (h : s.n ≤ s.pos) : readU8 s = .exhausted s := by
  rw [readU8_eq, if_pos (by omega)]

theorem readU16LE_of_fits {s : State} (h : s.pos + 2 ≤ s.n) :
    readU16LE s =
      .ok (joinLE (s.buf.read s.pos) (s.buf.read (s.pos + 1))) (s.advance 2) := by
  rw [readU16LE_eq, if_neg (by omega)]

theorem readU16LE_of_short {s : State} (h : s.n < s.pos + 2) : readU16LE s = .exhausted s := by
  rw [readU16LE_eq, if_pos (by omega)]

theorem readS8_of_fits {s : State} (h : s.pos < s.n) :
    readS8 s = .ok (sext16 (s.buf.read s.pos)) (s.advance 1) := by
  rw [readS8_eq, if_neg (by omega)]

theorem readS8_of_short {s : State} (h : s.n ≤ s.pos) : readS8 s = .exhausted s := by
  rw [readS8_eq, if_pos (by omega)]

@[simp] theorem ReadResult.bind_ok {α β : Type} (v : α) (s : State)
    (f : α → State → ReadResult β) : (ReadResult.ok v s).bind f = f v s := rfl

@[simp] theorem ReadResult.bind_exhausted {α β : Type} (s : State)
    (f : α → State → ReadResult β) : (ReadResult.exhausted s).bind f = .exhausted s := rfl

/-- Fields that all fit are all read. -/
theorem State.consumeAll_of_fits {ks : List Nat} {s : State} (h : s.pos + ks.sum ≤ s.n) :
    s.consumeAll ks = .all (s.advance ks.sum) := by
  induction ks generalizing s with
  | nil => rfl
  | cons k ks ih =>
    simp only [List.sum_cons] at h
    have hk : s.consume k = some (s.advance k) := consume_of_fits (by omega)
    have := @ih (s.advance k) (by simp; omega)
    simp [consumeAll, hk, this]

/-- Fields that run past the buffer stop at the first that does. -/
theorem State.consumeAll_of_short {ks : List Nat} {s : State} (hp : s.pos ≤ s.n)
    (h : s.n < s.pos + ks.sum) :
    ∃ k, ∃ hk : k < ks.length, s.consumeAll ks = .short (s.advance (ks.take k).sum) ∧
      s.pos + (ks.take k).sum ≤ s.n ∧ s.n < s.pos + (ks.take k).sum + ks[k] := by
  induction ks generalizing s with
  | nil => simp at h; omega
  | cons w ks ih =>
    simp only [List.sum_cons] at h
    by_cases hw : s.pos + w ≤ s.n
    · obtain ⟨k, hk, he, h1, h2⟩ := @ih (s.advance w) (by simpa using hw) (by simp; omega)
      refine ⟨k + 1, by simpa using hk, ?_, ?_, ?_⟩
      · simp [consumeAll, consume_of_fits hw, he]
      · simp only [advance_pos, advance_n] at h1
        simpa [Nat.add_assoc] using h1
      · simp only [advance_pos, advance_n] at h2
        simpa [Nat.add_assoc] using h2
    · refine ⟨0, by simp, ?_, by simpa using hp, by simpa using Nat.lt_of_not_le hw⟩
      simp [consumeAll, consume_of_short hp (Nat.lt_of_not_le hw)]

/-- The routine on an instruction that fits. -/
theorem State.routine_of_fits {s : State} {op : Byte} {ks : List Nat} {r : Record}
    (h : s.pos + (1 + ks.sum) ≤ s.n) :
    s.routine op ks r = .next ((s.advance (1 + ks.sum)).respond (.instr r)) := by
  have := @consumeAll_of_fits ks (s.advance 1) (by simp; omega)
  simp [routine, show s.pos < s.n by omega, this]

/-- The routine on an instruction that is cut short. -/
theorem State.routine_of_short {s : State} {op : Byte} {ks : List Nat} {r : Record}
    (hp : s.pos < s.n) (h : s.n < s.pos + (1 + ks.sum)) :
    ∃ k, ∃ hk : k < ks.length,
      s.routine op ks r = .next ((s.advance (1 + (ks.take k).sum)).fail .truncated s.pos op
        (s.pos + (1 + (ks.take k).sum))) ∧
      s.pos + (1 + (ks.take k).sum) ≤ s.n ∧ s.n < s.pos + (1 + (ks.take k).sum) + ks[k] := by
  obtain ⟨k, hk, he, h1, h2⟩ :=
    @consumeAll_of_short ks (s.advance 1) (by simp; omega) (by simp; omega)
  simp only [advance_pos, advance_n] at h1 h2
  refine ⟨k, hk, ?_, by omega, by omega⟩
  simp [routine, hp, he]

/-- Everything the routine can do. -/
theorem State.routine_cases (s : State) (op : Byte) (ks : List Nat) (r : Record) :
    (s.pos + (1 + ks.sum) ≤ s.n ∧
      s.routine op ks r = .next ((s.advance (1 + ks.sum)).respond (.instr r))) ∨
    (s.pos < s.n ∧ s.n < s.pos + (1 + ks.sum) ∧ ∃ k, ∃ hk : k < ks.length,
      s.routine op ks r = .next ((s.advance (1 + (ks.take k).sum)).fail .truncated s.pos op
        (s.pos + (1 + (ks.take k).sum))) ∧
      s.pos + (1 + (ks.take k).sum) ≤ s.n ∧ s.n < s.pos + (1 + (ks.take k).sum) + ks[k]) ∨
    (s.n ≤ s.pos ∧ s.routine op ks r = .fault .noOpcodeByte) := by
  by_cases hp : s.pos < s.n
  · by_cases h : s.pos + (1 + ks.sum) ≤ s.n
    · exact .inl ⟨h, routine_of_fits h⟩
    · exact .inr (.inl ⟨hp, Nat.lt_of_not_le h, routine_of_short hp (Nat.lt_of_not_le h)⟩)
  · exact .inr (.inr ⟨Nat.le_of_not_lt hp, by simp [routine, hp]⟩)

/-- Every meaning is the routine on the instruction's own opcode, fields and record. -/
theorem exec_eq_routine (i : Instr) (s : State) :
    exec i s = s.routine i.opcode i.fields (recordOf i) := by
  cases i <;> rfl

end Sys2Proof.Machine
end

