-- ==== Sys2Proof/Laws/Decode.lean ====
section
/-! SUPPORT. The laws of the decoder's parts: byte order, the ModRM fields, the tails of a mode, the
immediate, and the verdict on each constructor's opcode byte. -/

namespace Sys2Proof

/-! ### Byte order and fields -/

/-- The value of two bytes, the low byte first (R34). -/
theorem joinLE_toNat (lo hi : Byte) : (joinLE lo hi).toNat = hi.toNat * 256 + lo.toNat := by
  have h : (joinLE lo hi).toNat = hi.toNat <<< 8 ||| lo.toNat := BitVec.toNat_append hi lo
  rw [h, ← Nat.shiftLeft_add_eq_or_of_lt lo.isLt, Nat.shiftLeft_eq]

theorem lowByte_toNat (v : Word) : (lowByte v).toNat = v.toNat % 256 := by
  simp [lowByte]

theorem highByte_toNat (v : Word) : (highByte v).toNat = v.toNat / 256 := by
  have := v.isLt
  simp only [highByte, BitVec.extractLsb'_toNat, Nat.shiftRight_eq_div_pow]
  omega

theorem zext16_toNat (b : Byte) : (zext16 b).toNat = b.toNat := by
  have := b.isLt
  simp only [zext16, BitVec.toNat_setWidth]
  omega

theorem joinLE_low_high (v : Word) : joinLE (lowByte v) (highByte v) = v := by
  apply BitVec.eq_of_toNat_eq
  rw [joinLE_toNat, lowByte_toNat, highByte_toNat]
  omega

theorem lowByte_joinLE (lo hi : Byte) : lowByte (joinLE lo hi) = lo := by
  apply BitVec.eq_of_toNat_eq
  rw [lowByte_toNat, joinLE_toNat]
  omega

theorem highByte_joinLE (lo hi : Byte) : highByte (joinLE lo hi) = hi := by
  apply BitVec.eq_of_toNat_eq
  rw [highByte_toNat, joinLE_toNat]
  omega

theorem lowByte_zext16 (b : Byte) : lowByte (zext16 b) = b := by
  apply BitVec.eq_of_toNat_eq
  rw [lowByte_toNat, zext16_toNat]
  omega

theorem zext16_lowByte {v : Word} (h : v.toNat ≤ 255) : zext16 (lowByte v) = v := by
  apply BitVec.eq_of_toNat_eq
  rw [zext16_toNat, lowByte_toNat]
  omega

theorem modField_modRM : ∀ (mod : BitVec 2) (reg rm : Code3), modField (modRM mod reg rm) = mod := by
  decide

theorem regField_modRM : ∀ (mod : BitVec 2) (reg rm : Code3), regField (modRM mod reg rm) = reg := by
  decide

theorem rmField_modRM : ∀ (mod : BitVec 2) (reg rm : Code3), rmField (modRM mod reg rm) = rm := by
  decide

theorem modRM_fields : ∀ m : Byte, modRM (modField m) (regField m) (rmField m) = m := by
  decide

/-- "`mod` has only these four values" (R70). -/
theorem mod_cases : ∀ mod : BitVec 2,
    mod = 0b11#2 ∨ mod = 0b00#2 ∨ mod = 0b01#2 ∨ mod = 0b10#2 := by
  decide

/-! ### The parts of an instruction -/

theorem RmMode.tail_length (m : RmMode) (h : m.wf = true) : m.tail.length = m.len := by
  cases m <;> simp_all [RmMode.wf, tail, len, dlen, RmMode.mod, RmMode.rm]

theorem immBytes_length (w : Width) (v : Word) : (immBytes w v).length = w.immLen := by
  cases w <;> rfl

theorem takeU8_none_iff (bs : List Byte) : takeU8 bs = none ↔ bs.length < 1 := by
  cases bs <;> simp [takeU8]

theorem takeU8_some_iff (bs : List Byte) (b : Byte) (rest : List Byte) :
    takeU8 bs = some (b, rest) ↔ bs = b :: rest := by
  cases bs <;> simp [takeU8]

theorem takeU16_none_iff (bs : List Byte) : takeU16 bs = none ↔ bs.length < 2 := by
  match bs with
  | [] => simp [takeU16]
  | [_] => simp [takeU16]
  | _ :: _ :: _ => simp [takeU16]

theorem takeU16_some_iff (bs : List Byte) (v : Word) (rest : List Byte) :
    takeU16 bs = some (v, rest) ↔ bs = lowByte v :: highByte v :: rest := by
  match bs with
  | [] => simp [takeU16]
  | [_] => simp [takeU16]
  | lo :: hi :: tl =>
    constructor
    · intro h
      simp only [takeU16, Option.some.injEq, Prod.mk.injEq] at h
      obtain ⟨rfl, rfl⟩ := h
      simp [lowByte_joinLE, highByte_joinLE]
    · intro h
      simp only [List.cons.injEq] at h
      obtain ⟨rfl, rfl, rfl⟩ := h
      simp [takeU16, joinLE_low_high]

/-- A mode's tail is read back as the mode. -/
theorem takeRmMode_tail (m : RmMode) (h : m.wf = true) (rest : List Byte) :
    takeRmMode m.mod m.rm (m.tail ++ rest) = some (m, rest) := by
  cases m <;>
    simp_all [RmMode.wf, takeRmMode, RmMode.tail, RmMode.mod, RmMode.rm, takeU8, takeU16, joinLE_low_high]

/-- What is read is a well-formed mode with the given fields, and its tail was there. -/
theorem takeRmMode_some {mod : BitVec 2} {rm : Code3} {bs rest : List Byte} {m : RmMode}
    (h : takeRmMode mod rm bs = some (m, rest)) :
    m.wf = true ∧ m.mod = mod ∧ m.rm = rm ∧ bs = m.tail ++ rest := by
  have hmod : mod = 0b11#2 ∨ mod = 0b00#2 ∨ mod = 0b01#2 ∨ mod = 0b10#2 := mod_cases mod
  unfold takeRmMode at h
  rcases hmod with rfl | rfl | rfl | rfl
  · simp at h
    obtain ⟨rfl, rfl⟩ := h
    simp [RmMode.wf, RmMode.mod, RmMode.rm, RmMode.tail]
  · simp at h
    split at h
    · next hrm =>
      simp only [Option.map_eq_some_iff] at h
      obtain ⟨⟨v, r⟩, h1, h2⟩ := h
      rw [takeU16_some_iff] at h1
      simp only [Prod.mk.injEq] at h2
      obtain ⟨rfl, rfl⟩ := h2
      simp [RmMode.wf, RmMode.mod, RmMode.rm, RmMode.tail, h1, hrm]
    · next hrm =>
      simp only [Option.some.injEq, Prod.mk.injEq] at h
      obtain ⟨rfl, rfl⟩ := h
      simp [RmMode.wf, RmMode.mod, RmMode.rm, RmMode.tail, hrm]
  · simp at h
    obtain ⟨b, h1, rfl⟩ := h
    rw [takeU8_some_iff] at h1
    simp [RmMode.wf, RmMode.mod, RmMode.rm, RmMode.tail, h1]
  · simp at h
    obtain ⟨v, h1, rfl⟩ := h
    rw [takeU16_some_iff] at h1
    simp [RmMode.wf, RmMode.mod, RmMode.rm, RmMode.tail, h1]

/-- A mode's tail is cut short exactly when fewer than `dlen` bytes are left. -/
theorem takeRmMode_none_iff (mod : BitVec 2) (rm : Code3) (bs : List Byte) :
    takeRmMode mod rm bs = none ↔ bs.length < dlen mod rm := by
  unfold takeRmMode dlen
  split
  · simp
  · split
    · split
      · simp [takeU16_none_iff]
      · simp
    · split
      · simp [takeU8_none_iff]
      · simp [takeU16_none_iff]

/-- An immediate that fits its width is read back. -/
theorem takeImm_immBytes (w : Width) (v : Word) (h : immFits w v = true) (rest : List Byte) :
    takeImm w (immBytes w v ++ rest) = some (v, rest) := by
  cases w
  · simp [immFits] at h
    simp [takeImm, immBytes, takeU8, zext16_lowByte h]
  · simp [takeImm, immBytes, takeU16, joinLE_low_high]

/-- What is read is an immediate that fits, and its bytes were there. -/
theorem takeImm_some {w : Width} {bs rest : List Byte} {v : Word}
    (h : takeImm w bs = some (v, rest)) : immFits w v = true ∧ bs = immBytes w v ++ rest := by
  cases w
  · simp only [takeImm, Option.map_eq_some_iff] at h
    obtain ⟨⟨b, r⟩, h1, h2⟩ := h
    rw [takeU8_some_iff] at h1
    simp only [Prod.mk.injEq] at h2
    obtain ⟨rfl, rfl⟩ := h2
    have := b.isLt
    simp [immFits, immBytes, zext16_toNat, lowByte_zext16, h1]
    omega
  · simp only [takeImm] at h
    rw [takeU16_some_iff] at h
    simp [immFits, immBytes, h]

theorem takeImm_none_iff (w : Width) (bs : List Byte) :
    takeImm w bs = none ↔ bs.length < w.immLen := by
  cases w
  · simp [takeImm, takeU8_none_iff, Width.immLen]
  · simp [takeImm, takeU16_none_iff, Width.immLen]

/-! ### Lengths -/

theorem RmMode.len_le (m : RmMode) : m.len ≤ 2 := by
  unfold len dlen
  repeat' split
  all_goals omega

/-- The length is the opcode byte and the fields after it. -/
theorem Instr.length_eq (i : Instr) : i.length = 1 + i.fields.sum := by
  cases i <;> simp [length, fields] <;> omega

/-- The encoding has the instruction's length. -/
theorem encode_length (i : Instr) (h : i.wf = true) : (encode i).length = i.length := by
  cases i <;>
    simp_all [Instr.wf, encode, Instr.operandBytes, Instr.length, RmMode.tail_length, immBytes_length] <;>
    omega

end Sys2Proof
end

