-- ==== Sys2Proof/Laws/Memory.lean ====
section
/-! SUPPORT. The buffer's laws: a read after a write, the canonical form kept by every operation. -/

namespace Sys2Proof.Machine

theorem Memory.read_put_same (m : Memory) (a : Nat) (b : Byte) : (m.put a b).read a = b := by
  induction m with
  | nil => simp [put, read]
  | cons c m ih =>
    obtain ⟨a', b'⟩ := c
    simp only [put]
    split
    · simp [read]
    · split
      · simp [read]
      · simp [read, *]

theorem Memory.read_put_other (m : Memory) {a c : Nat} (b : Byte) (h : c ≠ a) :
    (m.put a b).read c = m.read c := by
  induction m with
  | nil => simp [put, read, h]
  | cons d m ih =>
    obtain ⟨a', b'⟩ := d
    simp only [put]
    split
    · simp [read, h]
    · split
      · next heq => subst heq; simp [read, h]
      · simp [read, ih]

theorem Memory.read_drop_other (m : Memory) {a c : Nat} (h : c ≠ a) :
    (m.drop a).read c = m.read c := by
  induction m with
  | nil => simp [drop]
  | cons d m ih =>
    obtain ⟨a', b'⟩ := d
    simp only [drop]
    split
    · next heq => subst heq; simp [read, h]
    · simp [read, ih]

/-- The canonical form, one entry at a time. -/
theorem Memory.wf_cons (a : Nat) (b : Byte) (m : Memory) :
    Memory.wf ((a, b) :: m) = true ↔
      b ≠ Memory.unlisted ∧ (∀ c ∈ m, a < c.1) ∧ m.wf = true := by
  simp [wf, and_assoc]

theorem Memory.below_iff (m : Memory) (n : Nat) : m.below n = true ↔ ∀ c ∈ m, c.1 < n := by
  simp [below]

/-- An offset below every entry reads as an unlisted one. -/
theorem Memory.read_of_lt (m : Memory) {a : Nat} (h : ∀ c ∈ m, a < c.1) :
    m.read a = Memory.unlisted := by
  induction m with
  | nil => rfl
  | cons d m ih =>
    have hd := h d (by simp)
    simp [read, Nat.ne_of_lt hd, ih fun c hc => h c (by simp [hc])]

/-- An offset above every entry reads as an unlisted one. -/
theorem Memory.read_of_below (m : Memory) {n a : Nat} (h : m.below n = true) (ha : n ≤ a) :
    m.read a = Memory.unlisted := by
  rw [below_iff] at h
  induction m with
  | nil => rfl
  | cons d m ih =>
    have hd := h d (by simp)
    have : a ≠ d.1 := by omega
    simp [read, this, ih fun c hc => h c (by simp [hc])]

theorem Memory.read_drop_same (m : Memory) (a : Nat) (h : m.wf = true) :
    (m.drop a).read a = Memory.unlisted := by
  induction m with
  | nil => rfl
  | cons d m ih =>
    obtain ⟨a', b'⟩ := d
    obtain ⟨-, hlt, hwf⟩ := (wf_cons ..).1 h
    simp only [drop]
    split
    · next heq => subst heq; exact read_of_lt m hlt
    · simp [read, *]

/-- A read after a write to the same offset gives the byte written. -/
theorem Memory.read_write_same (m : Memory) (a : Nat) (b : Byte) (h : m.wf = true) :
    (m.write a b).read a = b := by
  unfold write
  split
  · next hb => rw [hb]; exact read_drop_same m a h
  · exact read_put_same m a b

/-- A write leaves every other offset alone. -/
theorem Memory.read_write_other (m : Memory) {a c : Nat} (b : Byte) (h : c ≠ a) :
    (m.write a b).read c = m.read c := by
  unfold write
  split
  · exact read_drop_other m h
  · exact read_put_other m b h

theorem Memory.mem_put {m : Memory} {a : Nat} {b : Byte} {c : Host.Cell} (h : c ∈ m.put a b) :
    c = (a, b) ∨ c ∈ m := by
  induction m with
  | nil => simpa [put] using h
  | cons d m ih =>
    obtain ⟨a', b'⟩ := d
    simp only [put] at h
    split at h
    · simpa using h
    · split at h
      · rcases List.mem_cons.1 h with h | h
        · exact .inl h
        · exact .inr (by simp [h])
      · rcases List.mem_cons.1 h with h | h
        · exact .inr (by simp [h])
        · rcases ih h with h | h
          · exact .inl h
          · exact .inr (by simp [h])

theorem Memory.mem_drop {m : Memory} {a : Nat} {c : Host.Cell} (h : c ∈ m.drop a) : c ∈ m := by
  induction m with
  | nil => simp [drop] at h
  | cons d m ih =>
    obtain ⟨a', b'⟩ := d
    simp only [drop] at h
    split at h
    · simp [h]
    · rcases List.mem_cons.1 h with h | h
      · simp [h]
      · simp [ih h]

theorem Memory.wf_put (m : Memory) (a : Nat) (b : Byte) (hb : b ≠ Memory.unlisted)
    (h : m.wf = true) : (m.put a b).wf = true := by
  induction m with
  | nil => simp [put, wf, hb]
  | cons d m ih =>
    obtain ⟨a', b'⟩ := d
    obtain ⟨hb', hlt, hwf⟩ := (wf_cons ..).1 h
    simp only [put]
    split
    · next hlt' =>
      refine (wf_cons ..).2 ⟨hb, fun c hc => ?_, h⟩
      rcases List.mem_cons.1 hc with hc | hc
      · simpa [hc] using hlt'
      · exact Nat.lt_trans hlt' (hlt c hc)
    · split
      · next heq => subst heq; exact (wf_cons ..).2 ⟨hb, hlt, hwf⟩
      · refine (wf_cons ..).2 ⟨hb', fun c hc => ?_, ih hwf⟩
        rcases mem_put hc with hc | hc
        · simp [hc]; omega
        · exact hlt c hc

theorem Memory.wf_drop (m : Memory) (a : Nat) (h : m.wf = true) : (m.drop a).wf = true := by
  induction m with
  | nil => rfl
  | cons d m ih =>
    obtain ⟨a', b'⟩ := d
    obtain ⟨hb', hlt, hwf⟩ := (wf_cons ..).1 h
    simp only [drop]
    split
    · exact hwf
    · exact (wf_cons ..).2 ⟨hb', fun c hc => hlt c (mem_drop hc), ih hwf⟩

/-- A write keeps the canonical form. -/
theorem Memory.wf_write (m : Memory) (a : Nat) (b : Byte) (h : m.wf = true) :
    (m.write a b).wf = true := by
  unfold write
  split
  · exact wf_drop m a h
  · next hb => exact wf_put m a b hb h

theorem Memory.below_write (m : Memory) {a n : Nat} (b : Byte) (ha : a < n)
    (h : m.below n = true) : (m.write a b).below n = true := by
  rw [below_iff] at h ⊢
  intro c hc
  unfold write at hc
  split at hc
  · exact h c (mem_drop hc)
  · rcases mem_put hc with hc | hc
    · simpa [hc] using ha
    · exact h c hc

/-- Writing bytes keeps the canonical form. -/
theorem Memory.wf_writeBytes (bs : List Byte) (m : Memory) (a : Nat) (h : m.wf = true) :
    (m.writeBytes a bs).wf = true := by
  induction bs generalizing m a with
  | nil => exact h
  | cons b bs ih => exact ih _ _ (wf_write m a b h)

theorem Memory.below_writeBytes (bs : List Byte) (m : Memory) {a n : Nat}
    (ha : a + bs.length ≤ n) (h : m.below n = true) : (m.writeBytes a bs).below n = true := by
  induction bs generalizing m a with
  | nil => exact h
  | cons b bs ih =>
    simp only [List.length_cons] at ha
    exact ih _ (by omega) (below_write m b (by omega) h)

/-- Writing bytes leaves every offset outside them alone. -/
theorem Memory.read_writeBytes_outside (bs : List Byte) (m : Memory) {a c : Nat}
    (h : c < a ∨ a + bs.length ≤ c) : (m.writeBytes a bs).read c = m.read c := by
  induction bs generalizing m a with
  | nil => rfl
  | cons b bs ih =>
    simp only [List.length_cons] at h
    rw [writeBytes, ih _ (by omega), read_write_other m b (by omega)]

/-- A read after writing bytes gives the byte written there. -/
theorem Memory.read_writeBytes_inside (bs : List Byte) (m : Memory) (a k : Nat)
    (hm : m.wf = true) (h : k < bs.length) : (m.writeBytes a bs).read (a + k) = bs[k] := by
  induction bs generalizing m a k with
  | nil => simp at h
  | cons b bs ih =>
    rw [writeBytes]
    cases k with
    | zero =>
      rw [read_writeBytes_outside bs _ (by omega)]
      simpa using read_write_same m a b hm
    | succ k =>
      have := ih (m.write a b) (a + 1) k (wf_write m a b hm) (by simpa using h)
      rw [show a + (k + 1) = a + 1 + k by omega, this]
      simp

theorem State.reset_buf_wf : State.reset.buf.wf = true := rfl

/-- A placed buffer is in the canonical form and holds nothing past its end. -/
theorem State.place_buf_legal (s : State) (bs : List Byte) :
    (s.place bs).buf.wf = true ∧ (s.place bs).buf.below (s.place bs).n = true :=
  ⟨Memory.wf_writeBytes bs [] 0 rfl, Memory.below_writeBytes bs [] (by simp) rfl⟩

end Sys2Proof.Machine
end

