-- ==== Sys2Proof/Laws/PerInstr.lean ====
section
/-! SUPPORT. Facts about every instruction as syntax, one lemma per constructor. -/

namespace Sys2Proof.Laws.LengthBounds

/-- A well-formed instruction is 2 to 6 bytes long and so is its encoding (30_encoding.md R43, R55). -/
def Statement (i : Instr) : Prop :=
  i.wf = true → (encode i).length = i.length ∧ 2 ≤ i.length ∧ i.length ≤ 6

theorem of_length {i : Instr} (h : 2 ≤ i.length ∧ i.length ≤ 6) : Statement i :=
  fun hw => ⟨encode_length i hw, h⟩

theorem movRmReg (w : Width) (reg : Code3) (rm : RmMode) : Statement (.movRmReg w reg rm) :=
  of_length (by have := rm.len_le; simp only [Instr.length]; omega)

theorem movRegRm (w : Width) (reg : Code3) (rm : RmMode) : Statement (.movRegRm w reg rm) :=
  of_length (by have := rm.len_le; simp only [Instr.length]; omega)

theorem movRegImm (w : Width) (r : Code3) (v : Word) : Statement (.movRegImm w r v) :=
  of_length (by cases w <;> simp [Instr.length, Width.immLen])

theorem movRmImm (w : Width) (ign : Code3) (rm : RmMode) (v : Word) :
    Statement (.movRmImm w ign rm v) :=
  of_length (by
    have := rm.len_le
    cases w <;> simp only [Instr.length, Width.immLen] <;> omega)

theorem movAccMem (w : Width) (a : Word) : Statement (.movAccMem w a) := of_length (by simp [Instr.length])

theorem movMemAcc (w : Width) (a : Word) : Statement (.movMemAcc w a) := of_length (by simp [Instr.length])

end Sys2Proof.Laws.LengthBounds

namespace Sys2Proof.Laws.OpcodeClass

/-- The class an instruction belongs to (41_matcher.md R84). -/
def classOf : Instr → OpClass
  | .movRmReg _ _ _ => .rmReg
  | .movRegRm _ _ _ => .rmReg
  | .movRegImm _ _ _ => .immReg
  | .movRmImm _ _ _ _ => .immMem
  | .movAccMem _ _ => .accMem
  | .movMemAcc _ _ => .accMem

/-- The matcher's verdict on an instruction's opcode byte is the instruction's class (R76, R84). -/
def Statement (i : Instr) : Prop := classify i.opcode = classOf i

theorem movRmReg (w : Width) (reg : Code3) (rm : RmMode) : Statement (.movRmReg w reg rm) := by
  have h : ∀ w : BitVec 1, classify (0b1000100#7 ++ w) = .rmReg := by decide
  exact h w.bit

theorem movRegRm (w : Width) (reg : Code3) (rm : RmMode) : Statement (.movRegRm w reg rm) := by
  have h : ∀ w : BitVec 1, classify (0b1000101#7 ++ w) = .rmReg := by decide
  exact h w.bit

theorem movRegImm (w : Width) (r : Code3) (v : Word) : Statement (.movRegImm w r v) := by
  have h : ∀ (w : BitVec 1) (r : Code3), classify (0b1011#4 ++ w ++ r) = .immReg := by decide
  exact h w.bit r

theorem movRmImm (w : Width) (ign : Code3) (rm : RmMode) (v : Word) :
    Statement (.movRmImm w ign rm v) := by
  have h : ∀ w : BitVec 1, classify (0b1100011#7 ++ w) = .immMem := by decide
  exact h w.bit

theorem movAccMem (w : Width) (a : Word) : Statement (.movAccMem w a) := by
  have h : ∀ w : BitVec 1, classify (0b1010000#7 ++ w) = .accMem := by decide
  exact h w.bit

theorem movMemAcc (w : Width) (a : Word) : Statement (.movMemAcc w a) := by
  have h : ∀ w : BitVec 1, classify (0b1010001#7 ++ w) = .accMem := by decide
  exact h w.bit

end Sys2Proof.Laws.OpcodeClass
end

