-- ==== Sys2Proof/Laws/Step.lean ====
section
/-! SUPPORT. Everything a step can do, and what the window of bytes at the cursor is. -/

namespace Sys2Proof.Machine

theorem State.window_length (s : State) : s.window.length = min maxLength (s.n - s.pos) := by
  simp [window]

theorem State.window_getElem (s : State) (k : Nat) (h : k < s.window.length) :
    s.window[k] = s.buf.read (s.pos + k) := by
  simp [window]

theorem State.window_eq_nil_iff (s : State) : s.window = [] ↔ s.n ≤ s.pos := by
  rw [← List.length_eq_zero_iff, window_length, maxLength]
  omega

theorem State.bytes_length (s : State) : s.bytes.length = s.n := by
  simp [bytes]

/-- While bytes are left the window begins with the byte at the cursor. -/
theorem State.window_cons (s : State) (h : s.pos < s.n) :
    ∃ bs, s.window = s.buf.read s.pos :: bs := by
  cases hw : s.window with
  | nil => exact absurd ((window_eq_nil_iff s).1 hw) (by omega)
  | cons b bs =>
    have := s.window_getElem 0 (by simp [hw])
    simp only [hw, List.getElem_cons_zero, Nat.add_zero] at this
    exact ⟨bs, by rw [this]⟩

/-- At most `m` of the bytes left at the cursor; the window is this for `m = maxLength`. -/
def State.upTo (s : State) (m : Nat) : List Byte :=
  (List.range (min m (s.n - s.pos))).map fun k => s.buf.read (s.pos + k)

theorem State.window_eq_upTo (s : State) : s.window = s.upTo maxLength := rfl

/-- The bytes at the cursor, one at a time: the first, then those at the advanced cursor. -/
theorem State.upTo_succ (s : State) (m : Nat) :
    s.upTo (m + 1) =
      if s.pos < s.n then s.buf.read s.pos :: (s.advance 1).upTo m else [] := by
  unfold upTo
  split
  · next h =>
    rw [show min (m + 1) (s.n - s.pos) = min m (s.n - (s.pos + 1)) + 1 by omega,
      List.range_succ_eq_map]
    simp [Function.comp_def, Nat.add_assoc, Nat.add_comm 1]
  · next h => simp [show s.n - s.pos = 0 by omega]

/-- The decoder's byte is the cursor's (R30). -/
theorem State.takeU8_upTo (s : State) (m : Nat) :
    takeU8 (s.upTo (m + 1)) =
      if s.pos < s.n then some (s.buf.read s.pos, (s.advance 1).upTo m) else none := by
  rw [upTo_succ]
  split <;> rfl

/-- The decoder's word is the cursor's (R31). -/
theorem State.takeU16_upTo (s : State) (m : Nat) :
    takeU16 (s.upTo (m + 2)) =
      if s.pos + 2 ≤ s.n then
        some (joinLE (s.buf.read s.pos) (s.buf.read (s.pos + 1)), (s.advance 2).upTo m)
      else none := by
  rw [upTo_succ, upTo_succ]
  by_cases h1 : s.pos < s.n
  · by_cases h2 : s.pos + 1 < s.n
    · simp [h1, h2, show s.pos + 2 ≤ s.n by omega, takeU16]
    · simp [h1, h2, show ¬ s.pos + 2 ≤ s.n by omega, takeU16]
  · simp [h1, show ¬ s.pos + 2 ≤ s.n by omega, takeU16]

/-- The decoder answers that there is no byte for the empty list alone. -/
theorem decode_noByte_iff (bs : List Byte) : decode bs = .noByte ↔ bs = [] := by
  constructor
  · intro h
    cases bs with
    | nil => rfl
    | cons op bs =>
      simp only [decode] at h
      split at h
      · unfold decodeImmMem at h
        repeat' split at h
        all_goals contradiction
      · unfold decodeImmReg at h
        split at h <;> contradiction
      · unfold decodeRmReg at h
        repeat' split at h
        all_goals contradiction
      · unfold decodeAccMem at h
        repeat' split at h
        all_goals contradiction
      · contradiction
  · rintro rfl; rfl

/-- Everything a step can do. -/
theorem step_cases (s : State) :
    (s.status = .error ∧ step s = .next (s.respond s.errorResponse)) ∨
    (s.status = .ended ∧ step s = .next (s.respond .ended)) ∨
    (s.status = .ready ∧ s.pos = s.n ∧ step s = .next s.finish) ∨
    (s.status = .ready ∧ s.pos < s.n ∧ ∃ i rest, decode s.window = .instr i rest ∧
      step s = exec i s) ∨
    (s.status = .ready ∧ s.pos < s.n ∧ ∃ op, decode s.window = .unsupported op ∧
      step s = .next ((s.advance 1).fail .unsupportedOpcode s.pos op s.pos)) ∨
    (s.status = .ready ∧ s.pos < s.n ∧ ∃ op used, decode s.window = .truncated op used ∧
      step s = .next ((s.advance used).fail .truncated s.pos op (s.pos + used))) ∨
    (s.status = .ready ∧ s.n < s.pos ∧ step s = .fault .noOpcodeByte) := by
  unfold step request
  split
  · next h => exact .inl ⟨h, rfl⟩
  · next h => exact .inr (.inl ⟨h, rfl⟩)
  · next h =>
    refine .inr (.inr ?_)
    by_cases hp : s.pos = s.n
    · exact .inl ⟨h, hp, by simp [hp]⟩
    · refine .inr ?_
      have hb := decode_noByte_iff s.window
      rw [s.window_eq_nil_iff] at hb
      simp only [hp, if_false]
      split
      · next i rest hd =>
        exact .inl ⟨h, by by_contra hc; simp [hb.2 (by omega)] at hd, i, rest, hd, rfl⟩
      · next op hd =>
        exact .inr (.inl ⟨h, by by_contra hc; simp [hb.2 (by omega)] at hd, op, hd, rfl⟩)
      · next op used hd =>
        exact .inr (.inr (.inl
          ⟨h, by by_contra hc; simp [hb.2 (by omega)] at hd, op, used, hd, rfl⟩))
      · next hd => exact .inr (.inr (.inr ⟨h, by have := hb.1 hd; omega, rfl⟩))

end Sys2Proof.Machine
end

