-- ==== Sys2Proof/Tests/Slice0.lean ====
section
/-! SUPPORT. The model's own tests. Expected values are the worked examples and vectors of
95_test_vectors.md (their ids are cited), or words written out from the encodings of 30_encoding.md.
The theorems named `witness_…` show that the hypotheses of each obligation can be met together. -/

namespace Sys2Proof.Tests

open Sys2Proof Sys2Proof.Machine Sys2Proof.Claims

/-- A live block over the bytes, its cursor at offset `p`. -/
def live (bs : List Byte) (p : Nat) : State := { booted bs with pos := p }

/-- The response of the first request of a pass over the bytes, and the cursor after it. -/
def first (bs : List Byte) : Option (Response × Nat) :=
  match step (booted bs) with
  | .next t => t.resp.map fun r => (r, t.pos)
  | .fault _ => none
  | .refused _ => none

/-- The line of the first response of a pass over the bytes. -/
def firstLine (bs : List Byte) : Option Line := (first bs).bind fun r => responseLine r.1

/-- A record answered, and the cursor after it. -/
def answer (dst src : Operand) (hint : SizeHint) (p : Nat) : Option (Response × Nat) :=
  some (.instr { mnemonic := .mov, dst := dst, src := src, hint := hint }, p)

/-- A truncated instruction at offset 0 with opcode byte `op`, its failing read at `p` (2.6 of
95_test_vectors.md under either value of `ERR_OFFSET_MODE`). -/
def cut (op : Byte) (p : Nat) : Option (Response × Nat) :=
  some (.error .truncated (errOffsetOf Config.errOffsetMode 0 p) op, p)

/-- `mov cx, [bx + di - 37]` (L1-4b), 3 bytes. -/
def load : Instr := .movRegRm .word 0b001#3 (.disp8 0b001#3 0xDB#8)

/-- Its bytes, and one more. -/
def loadBytes : List Byte := [0x8B#8, 0x49#8, 0xDB#8, 0x90#8]

/-- `mov [1000], word 300` (V-M17), 6 bytes. -/
def storeImm : Instr := .movRmImm .word 0b000#3 (.direct 1000#16) 300#16

def storeImmBytes : List Byte := [0xC7#8, 0x06#8, 0xE8#8, 0x03#8, 0x2C#8, 0x01#8]

/-! ### WellFormed: an ill-formed term for each check -/

theorem test_wf_refuses_base110_rm_reg :
    (Instr.movRmReg .word 0b000#3 (.base 0b110#3)).wf = false := by decide

theorem test_wf_refuses_base110_reg_rm :
    (Instr.movRegRm .byte 0b000#3 (.base 0b110#3)).wf = false := by decide

theorem test_wf_refuses_base110_rm_imm :
    (Instr.movRmImm .word 0b000#3 (.base 0b110#3) 1#16).wf = false := by decide

theorem test_wf_refuses_wide_byte_imm_reg :
    (Instr.movRegImm .byte 0b000#3 256#16).wf = false := by decide

theorem test_wf_refuses_wide_byte_imm_rm :
    (Instr.movRmImm .byte 0b000#3 (.base 0b000#3) 256#16).wf = false := by decide

theorem test_wf_accepts_each_limit :
    (Instr.movRegImm .byte 0b000#3 255#16).wf = true ∧
    (Instr.movRegImm .word 0b000#3 65535#16).wf = true ∧
    (Instr.movRmReg .word 0b000#3 (.disp8 0b110#3 0#8)).wf = true := by decide

/-! ### Decoding: words written out from the encodings -/

/-- `1000100 0, 01 101 110, 00`: V-M3. -/
theorem test_decode_movRmReg :
    decode [0b10001000#8, 0b01101110#8, 0x00#8]
      = .instr (.movRmReg .byte 0b101#3 (.disp8 0b110#3 0x00#8)) [] := by decide

/-- `1000101 1, 10 000 111, FF FF`: L1-7. -/
theorem test_decode_movRegRm :
    decode [0b10001011#8, 0b10000111#8, 0xFF#8, 0xFF#8]
      = .instr (.movRegRm .word 0b000#3 (.disp16 0b111#3 0xFFFF#16)) [] := by decide

/-- `1011 1 001, F4 FF`: V-M11; the bytes after the instruction are left. -/
theorem test_decode_movRegImm :
    decode [0b10111001#8, 0xF4#8, 0xFF#8, 0xAB#8]
      = .instr (.movRegImm .word 0b001#3 0xFFF4#16) [0xAB#8] := by decide

/-- `1100011 0, 00 111 000, 09`: V-M15; the ModRM `reg` field 111 is kept in the term. -/
theorem test_decode_movRmImm :
    decode [0b11000110#8, 0b00111000#8, 0x09#8]
      = .instr (.movRmImm .byte 0b111#3 (.base 0b000#3) 9#16) [] := by decide

/-- `1010000 0, FF FF`: V-M21. -/
theorem test_decode_movAccMem :
    decode [0b10100000#8, 0xFF#8, 0xFF#8] = .instr (.movAccMem .byte 0xFFFF#16) [] := by decide

/-- `1010001 0, 00 00`: V-M23. -/
theorem test_decode_movMemAcc :
    decode [0b10100010#8, 0x00#8, 0x00#8] = .instr (.movMemAcc .byte 0#16) [] := by decide

/-- Bytes beside the classes are unsupported, `C4h` and `8Ch` among them (2.5). -/
theorem test_decode_unsupported :
    [0x87#8, 0x8C#8, 0x9F#8, 0xA4#8, 0xAF#8, 0xC0#8, 0xC4#8, 0xC5#8, 0xC8#8].map
        (fun op => decode [op, 0x00#8])
      = [.unsupported 0x87#8, .unsupported 0x8C#8, .unsupported 0x9F#8, .unsupported 0xA4#8,
         .unsupported 0xAF#8, .unsupported 0xC0#8, .unsupported 0xC4#8, .unsupported 0xC5#8,
         .unsupported 0xC8#8] := by decide

/-- The words of opcode_table.json's rows, operand bytes zero: `00` as ModRM is `[bx + si]`. -/
theorem test_table_words :
    decodeTableWord 8 0x88 = some (.movRmReg .byte 0b000#3 (.base 0b000#3)) ∧
    decodeTableWord 8 0x8A = some (.movRegRm .byte 0b000#3 (.base 0b000#3)) ∧
    decodeTableWord 8 0xB0 = some (.movRegImm .byte 0b000#3 0#16) ∧
    decodeTableWord 8 0xC6 = some (.movRmImm .byte 0b000#3 (.base 0b000#3) 0#16) ∧
    decodeTableWord 8 0xA0 = some (.movAccMem .byte 0#16) ∧
    decodeTableWord 8 0xA2 = some (.movMemAcc .byte 0#16) := by decide

/-- A step runs the word placed where it fetches: `C7 06 E8 03 2C 01` as one number. -/
theorem test_withFetchWord_runs :
    step (State.reset.withFetchWord 48 0x012C03E806C7)
      = exec (.movRmImm .word 0b000#3 (.direct 1000#16) 300#16)
          (State.reset.withFetchWord 48 0x012C03E806C7) := rfl

theorem test_table_rows_run :
    ([0x88, 0x8A, 0xB0, 0xC6, 0xA0, 0xA2].all fun w =>
      match step (State.reset.withFetchWord 8 w) with
      | .next t => t.status == .ready && t.resp.isSome
      | .fault _ => false
      | .refused _ => false) = true := by decide

/-! ### The instructions, one step each -/

/-- V-M1: `mov cx, bx`. -/
theorem test_movRmReg_word :
    first [0x89#8, 0xD9#8] = answer (.reg ⟨.word, 0b001#3⟩) (.reg ⟨.word, 0b011#3⟩) .none 2 := by
  decide

/-- V-M4: an unsigned word displacement. -/
theorem test_movRmReg_disp16 :
    first [0x89#8, 0x96#8, 0xFE#8, 0xFF#8]
      = answer (.mem (.base 0b110#3 65534 2)) (.reg ⟨.word, 0b010#3⟩) .none 4 := by decide

/-- V-M5: `mov bx, cx`, the other direction of V-M1. -/
theorem test_movRegRm_word :
    first [0x8B#8, 0xD9#8] = answer (.reg ⟨.word, 0b011#3⟩) (.reg ⟨.word, 0b001#3⟩) .none 2 := by
  decide

/-- L1-4b: a byte displacement of -37. -/
theorem test_movRegRm_disp8 :
    first [0x8B#8, 0x49#8, 0xDB#8]
      = answer (.reg ⟨.word, 0b001#3⟩) (.mem (.base 0b001#3 (-37) 1)) .none 3 := by decide

/-- V-M9: a byte immediate is unsigned. -/
theorem test_movRegImm_byte :
    first [0xB1#8, 0xF4#8] = answer (.reg ⟨.byte, 0b001#3⟩) (.imm 244#16 .byte) .none 2 := by decide

/-- V-M12. -/
theorem test_movRegImm_word :
    first [0xBA#8, 0x6C#8, 0x0F#8] = answer (.reg ⟨.word, 0b010#3⟩) (.imm 3948#16 .word) .none 3 := by
  decide

/-- V-M16: the immediate after a byte displacement. -/
theorem test_movRmImm_word :
    first [0xC7#8, 0x46#8, 0xFE#8, 0x10#8, 0x27#8]
      = answer (.mem (.base 0b110#3 (-2) 1)) (.imm 10000#16 .word) .word 5 := by decide

/-- V-M19: a register destination. -/
theorem test_movRmImm_register :
    first [0xC6#8, 0xC3#8, 0x05#8] = answer (.reg ⟨.byte, 0b011#3⟩) (.imm 5#16 .byte) .byte 3 := by
  decide

/-- V-M20. -/
theorem test_movAccMem_word :
    first [0xA1#8, 0xFB#8, 0x09#8]
      = answer (.reg ⟨.word, 0b000#3⟩) (.mem (.direct 2555#16)) .none 3 := by decide

/-- V-M21: a 16-bit address for the byte form too. -/
theorem test_movAccMem_byte :
    first [0xA0#8, 0xFF#8, 0xFF#8]
      = answer (.reg ⟨.byte, 0b000#3⟩) (.mem (.direct 65535#16)) .none 3 := by decide

/-- V-M22. -/
theorem test_movMemAcc_word :
    first [0xA3#8, 0xFA#8, 0x09#8]
      = answer (.mem (.direct 2554#16)) (.reg ⟨.word, 0b000#3⟩) .none 3 := by decide

/-- V-M23. -/
theorem test_movMemAcc_byte :
    first [0xA2#8, 0x00#8, 0x00#8]
      = answer (.mem (.direct 0#16)) (.reg ⟨.byte, 0b000#3⟩) .none 3 := by decide

/-! ### Errors, the protocol, the cursor -/

/-- 2.6: the failing field, by the cursor after it. -/
theorem test_truncated_modrm : first [0x88#8] = cut 0x88#8 1 := rfl

theorem test_truncated_disp8 : first [0x8B#8, 0x49#8] = cut 0x8B#8 2 := rfl

theorem test_truncated_lone_address_byte : first [0x8A#8, 0x06#8, 0x00#8] = cut 0x8A#8 2 := rfl

theorem test_truncated_disp16 : first [0xC6#8, 0x86#8, 0xFF#8] = cut 0xC6#8 2 := rfl

theorem test_truncated_imm16 : first [0xC7#8, 0x87#8, 0x01#8, 0x00#8, 0xFF#8] = cut 0xC7#8 4 := rfl

theorem test_truncated_imm_reg : first [0xB8#8, 0x01#8] = cut 0xB8#8 1 := rfl

theorem test_truncated_acc : first [0xA1#8, 0xFB#8] = cut 0xA1#8 1 := rfl

/-- The two readings of the reported offset (R116). -/
theorem test_error_offset_modes : errOffsetOf .instrStart 9 10 = 9 ∧ errOffsetOf .failPos 9 10 = 10 := by
  decide

/-- 2.5: an unmatched last byte is unsupported, not truncated. -/
theorem test_unsupported_last_byte :
    first [0xC5#8]
      = some (.error .unsupportedOpcode (errOffsetOf Config.errOffsetMode 0 0) 0xC5#8, 1) := rfl

/-- V-P1. -/
theorem test_empty_buffer_ends : first [] = some (.ended, 0) := by decide

/-- V-P3: a latched error is answered again and nothing is read. -/
theorem test_latched_error_repeats :
    step { live [0xB8#8, 0x01#8] 1 with
             status := .error, errKind := .truncated, errOffset := 9, errByte := 0xB8#8 }
      = .next { live [0xB8#8, 0x01#8] 1 with
                  status := .error, errKind := .truncated, errOffset := 9, errByte := 0xB8#8,
                  resp := some (.error .truncated 9 0xB8#8) } := rfl

/-- A shorter buffer placed after `END`: `POS` stays, past the new `N`, the old response is repeated (R132),
and reset makes the cursor 0 (log entry 18). -/
theorem test_place_after_end :
    step ((live loadBytes 4).finish.place [0x90#8]) = .next ((live loadBytes 4).finish.place [0x90#8]) ∧
    ((live loadBytes 4).finish.place [0x90#8]).pos = 4 ∧
    ((live loadBytes 4).finish.place [0x90#8]).n = 1 ∧
    ((live loadBytes 4).finish.place [0x90#8]).resetBlock = booted [0x90#8] :=
  ⟨rfl, rfl, rfl, rfl⟩

/-- V-C4: no alignment is needed. -/
theorem test_readU16_unaligned :
    readU16LE (live [0x34#8, 0x12#8, 0x56#8] 1) = .ok 0x5612#16 (live [0x34#8, 0x12#8, 0x56#8] 3) := by
  decide

/-- V-C5: a single byte is not consumed. -/
theorem test_readU16_short : readU16LE (live [0x34#8] 0) = .exhausted (live [0x34#8] 0) := by decide

/-- V-C7. -/
theorem test_readS8_negative : readS8 (live [0x80#8] 0) = .ok 0xFF80#16 (live [0x80#8] 1) := by decide

/-- Writing what an unlisted offset reads as takes the entry out; other entries stay in order. -/
theorem test_memory_canonical :
    Memory.writeBytes [] 0 [0x12#8, 0x00#8, 0x34#8] = [(0, 0x12#8), (2, 0x34#8)] ∧
    Memory.write [(0, 0x12#8), (2, 0x34#8)] 0 0x00#8 = [(2, 0x34#8)] ∧
    Memory.write [(0, 0x12#8), (2, 0x34#8)] 1 0x56#8
      = [(0, 0x12#8), (1, 0x56#8), (2, 0x34#8)] := by decide

/-- A request to the second of two blocks; the first is not touched (R126). -/
theorem test_two_blocks :
    requestTo 1 [booted [0x89#8, 0xD9#8], booted []]
      = .next [booted [0x89#8, 0xD9#8], (booted []).finish] := rfl

/-! ### The formatter -/

/-- L1-4b. -/
theorem test_line_negative_displacement :
    firstLine [0x8B#8, 0x49#8, 0xDB#8] = some "mov cx, [bx + di - 37]".toList := by decide

/-- V-M17. -/
theorem test_line_word_immediate :
    firstLine [0xC7#8, 0x06#8, 0xE8#8, 0x03#8, 0x2C#8, 0x01#8]
      = some "mov [1000], word 300".toList := by decide

/-- V-M19: no size word into a register. -/
theorem test_line_register_immediate :
    firstLine [0xC6#8, 0xC3#8, 0x05#8] = some "mov bl, 5".toList := by decide

/-- L1-8: a zero word displacement is not written. -/
theorem test_line_zero_displacement :
    firstLine [0x8A#8, 0x80#8, 0x00#8, 0x00#8] = some "mov al, [bx + si]".toList := by decide

/-! ### Witnesses: the hypotheses of each obligation, met together

One instruction per form: `[bx + di - 37]`, `[1000]`, a byte and a word immediate. -/

theorem witness_DecodeOfEncodeIsIdentity :
    load.wf = true ∧ storeImm.wf = true ∧ (Instr.movRegImm .byte 0b000#3 255#16).wf = true := by decide

theorem witness_DecodedBytesAreTheEncoding : decode loadBytes = .instr load [0x90#8] := by decide

theorem witness_TruncatedExactlyWhenCutShort :
    decode [0xC7#8, 0x06#8, 0xE8#8, 0x03#8, 0x2C#8] = .truncated 0xC7#8 4 ∧
    storeImm.wf = true ∧ 5 < storeImm.length ∧
    [0xC7#8, 0x06#8, 0xE8#8, 0x03#8, 0x2C#8] = (encode storeImm).take 5 := by decide

theorem witness_InstructionLengths :
    storeImm.wf = true ∧ storeImm.length = 6 ∧
    (Instr.movRegImm .byte 0b001#3 12#16).wf = true ∧
    (Instr.movRegImm .byte 0b001#3 12#16).length = 2 := by decide

theorem witness_PatternOrderDecidesNoByte : patterns.reverse.Perm patterns := List.reverse_perm _

theorem witness_ReadU8TakesNextByte :
    (live [0xAB#8] 0).pos < (live [0xAB#8] 0).n ∧ (live [0xAB#8] 1).pos = (live [0xAB#8] 1).n := by
  decide

theorem witness_ReadU16LETakesLowByteFirst :
    (live [0x34#8, 0x12#8] 0).pos + 2 = (live [0x34#8, 0x12#8] 0).n ∧
    ((live [0x34#8] 0).pos ≤ (live [0x34#8] 0).n ∧ (live [0x34#8] 0).n < (live [0x34#8] 0).pos + 2) := by
  decide

theorem witness_ReadS8SignExtends :
    ((live [0xFF#8] 0).pos < (live [0xFF#8] 0).n ∧ (live [0xFF#8] 0).buf.read 0 = 0xFF#8) ∧
    (live [] 0).pos = (live [] 0).n := by decide

theorem witness_FailedReadsConsumeNothing :
    (readU8 (live [0xAB#8] 1) = .exhausted (live [0xAB#8] 1) ∧
      readU16LE (live [0xAB#8] 0) = .exhausted (live [0xAB#8] 0) ∧
      readS8 (live [0xAB#8] 1) = .exhausted (live [0xAB#8] 1)) ∧
    readU8 (live [0xAB#8] 0) = .ok 0xAB#8 (live [0xAB#8] 1) ∧
    readU16LE (live [0x34#8, 0x12#8] 0) = .ok 0x1234#16 (live [0x34#8, 0x12#8] 2) ∧
    readS8 (live [0x7F#8] 0) = .ok 0x007F#16 (live [0x7F#8] 1) := by decide

theorem witness_ResolveBaseWithoutDisplacement : (0b111#3 : Code3) ≠ 0b110#3 := by decide

/-- Two bytes left, and one (2.6, `8A 06 00`). -/
theorem witness_ResolveDirectAddress :
    (live [0x8A#8, 0x06#8, 0x00#8, 0xA0#8] 2).pos + 2 = (live [0x8A#8, 0x06#8, 0x00#8, 0xA0#8] 2).n ∧
    ((live [0x8A#8, 0x06#8, 0x00#8] 2).pos ≤ (live [0x8A#8, 0x06#8, 0x00#8] 2).n ∧
      (live [0x8A#8, 0x06#8, 0x00#8] 2).n < (live [0x8A#8, 0x06#8, 0x00#8] 2).pos + 2) := by decide

/-- One byte left, and none (2.6, `8A 46`). -/
theorem witness_ResolveByteDisplacement :
    (live [0x8A#8, 0x46#8, 0x80#8] 2).pos < (live [0x8A#8, 0x46#8, 0x80#8] 2).n ∧
    (live [0x8A#8, 0x46#8] 2).pos = (live [0x8A#8, 0x46#8] 2).n := by decide

/-- Two bytes left, and one (2.6, `C6 86 FF`). -/
theorem witness_ResolveWordDisplacement :
    (live [0x8B#8, 0x87#8, 0xFF#8, 0xFF#8] 2).pos + 2 = (live [0x8B#8, 0x87#8, 0xFF#8, 0xFF#8] 2).n ∧
    ((live [0xC6#8, 0x86#8, 0xFF#8] 2).pos ≤ (live [0xC6#8, 0x86#8, 0xFF#8] 2).n ∧
      (live [0xC6#8, 0x86#8, 0xFF#8] 2).n < (live [0xC6#8, 0x86#8, 0xFF#8] 2).pos + 2) := by decide

theorem witness_ResolveReadsExactlyDlen :
    (live loadBytes 2).pos + dlen 0b01#2 0b001#3 ≤ (live loadBytes 2).n ∧
    ((live [0x8A#8, 0x46#8] 2).pos ≤ (live [0x8A#8, 0x46#8] 2).n ∧
      (live [0x8A#8, 0x46#8] 2).n < (live [0x8A#8, 0x46#8] 2).pos + dlen 0b01#2 0b110#3) := by decide

theorem witness_RmOperandIsWhatResolveReads :
    (RmMode.direct 1000#16).wf = true ∧
    (live storeImmBytes 2).pos + (RmMode.direct 1000#16).tail.length ≤ (live storeImmBytes 2).n ∧
    ∀ (k : Nat) (hk : k < (RmMode.direct 1000#16).tail.length),
      (live storeImmBytes 2).buf.read ((live storeImmBytes 2).pos + k)
        = (RmMode.direct 1000#16).tail[k] := by
  refine ⟨by decide, by decide, fun k hk => ?_⟩
  match k, hk with
  | 0, _ => rfl
  | 1, _ => rfl

/-- Each instruction where its bytes just fit. -/
theorem witness_Completes :
    (live [0x89#8, 0xD9#8] 0).pos + (2 + dlen 0b11#2 0b001#3) = (live [0x89#8, 0xD9#8] 0).n ∧
    (live [0x8B#8, 0x49#8, 0xDB#8] 0).pos + (2 + dlen 0b01#2 0b001#3)
      = (live [0x8B#8, 0x49#8, 0xDB#8] 0).n ∧
    (live [0xB1#8, 0x0C#8] 0).pos + 2 = (live [0xB1#8, 0x0C#8] 0).n ∧
    (live [0xB9#8, 0xF4#8, 0xFF#8] 0).pos + 3 = (live [0xB9#8, 0xF4#8, 0xFF#8] 0).n ∧
    (live storeImmBytes 0).pos + (2 + dlen 0b00#2 0b110#3 + 2) = (live storeImmBytes 0).n ∧
    (live [0xC6#8, 0x03#8, 0x07#8] 0).pos + (2 + dlen 0b00#2 0b011#3 + 1)
      = (live [0xC6#8, 0x03#8, 0x07#8] 0).n ∧
    (live [0xA1#8, 0xFB#8, 0x09#8] 0).pos + 3 = (live [0xA1#8, 0xFB#8, 0x09#8] 0).n ∧
    (live [0xA3#8, 0xFA#8, 0x09#8] 0).pos + 3 = (live [0xA3#8, 0xFA#8, 0x09#8] 0).n := by decide

theorem witness_ExecTruncatesAtFirstMissingField :
    (live (storeImmBytes.take 5) 0).pos < (live (storeImmBytes.take 5) 0).n ∧
    (live (storeImmBytes.take 5) 0).n < (live (storeImmBytes.take 5) 0).pos + storeImm.length := by
  decide

/-- A next state where the instruction fits, and one where it does not. -/
theorem witness_ExecFrame :
    exec load (live loadBytes 0) = .next (answered (live loadBytes 0) 3 (recordOf load)) ∧
    (live loadBytes 0).pos + load.length ≤ (live loadBytes 0).n ∧
    exec load (live [0x8B#8] 0)
      = .next (((live [0x8B#8] 0).advance 1).fail .truncated 0 0x8B#8 1) := ⟨rfl, by decide, rfl⟩

theorem witness_IgnoredRegFieldChangesNothing :
    classify 0xC6#8 = .immMem ∧
    decode (0xC6#8 :: modRM 0b00#2 0b111#3 0b000#3 :: [0x09#8])
      = .instr (.movRmImm .byte 0b111#3 (.base 0b000#3) 9#16) [] ∧
    decode (0xC6#8 :: modRM 0b00#2 0b111#3 0b000#3 :: []) = .truncated 0xC6#8 2 := by decide

theorem witness_StepRunsDecodedInstruction :
    (live loadBytes 0).status = .ready ∧ (live loadBytes 0).pos < (live loadBytes 0).n ∧
    decode (live loadBytes 0).window = .instr load [0x90#8] := by decide

/-- The whole instruction there, and its first two bytes only. -/
theorem witness_StepRunsEncodedInstruction :
    load.wf = true ∧ (live loadBytes 0).status = .ready ∧ (live loadBytes 0).pos < (live loadBytes 0).n ∧
    (∀ k, k < load.length → (live loadBytes 0).pos + k < (live loadBytes 0).n →
      (live loadBytes 0).buf.read ((live loadBytes 0).pos + k) = (encode load).getD k 0x00#8) ∧
    (live [0x8B#8, 0x49#8] 0).pos < (live [0x8B#8, 0x49#8] 0).n ∧
    (∀ k, k < load.length → (live [0x8B#8, 0x49#8] 0).pos + k < (live [0x8B#8, 0x49#8] 0).n →
      (live [0x8B#8, 0x49#8] 0).buf.read ((live [0x8B#8, 0x49#8] 0).pos + k)
        = (encode load).getD k 0x00#8) := by decide

theorem witness_StepIsDecodeOne : (live loadBytes 3).pos ≤ (live loadBytes 3).n := by decide

theorem witness_StepStopsOnlyPastTheBuffer :
    (live loadBytes 4).pos ≤ (live loadBytes 4).n ∧
    ((live loadBytes 5).status = .ready ∧ (live loadBytes 5).n < (live loadBytes 5).pos) := by decide

theorem witness_UnsupportedOpcodeEntry :
    (live loadBytes 3).status = .ready ∧ (live loadBytes 3).pos < (live loadBytes 3).n ∧
    classify ((live loadBytes 3).buf.read (live loadBytes 3).pos) = .none := by decide

/-- No ModRM byte; a displacement that fits; one that does not. -/
theorem witness_RegMemBytesDecode :
    ((live [0x8B#8] 0).status = .ready ∧ (live [0x8B#8] 0).buf.read 0 &&& 0xFC#8 = 0x88#8 ∧
      (live [0x8B#8] 0).pos + 1 = (live [0x8B#8] 0).n) ∧
    ((live loadBytes 0).buf.read 0 &&& 0xFC#8 = 0x88#8 ∧
      (live loadBytes 0).pos + 1 < (live loadBytes 0).n ∧
      resolve 0b01#2 0b001#3 .word (live loadBytes 2)
        = .ok (.mem (.base 0b001#3 (-37) 1)) (live loadBytes 3)) ∧
    ((live [0x8B#8, 0x49#8] 0).pos + 1 < (live [0x8B#8, 0x49#8] 0).n ∧
      resolve 0b01#2 0b001#3 .word (live [0x8B#8, 0x49#8] 2)
        = .exhausted (live [0x8B#8, 0x49#8] 2)) := by decide

/-- A byte immediate there and missing; a word immediate there and one byte short. -/
theorem witness_ImmRegBytesDecode :
    (0xB1#8 &&& 0xF0#8 = 0xB0#8 ∧ BitVec.getLsbD 0xB1#8 3 = false ∧
      0xB9#8 &&& 0xF0#8 = 0xB0#8 ∧ BitVec.getLsbD 0xB9#8 3 = true) ∧
    (live [0xB1#8, 0x0C#8] 0).pos + 1 < (live [0xB1#8, 0x0C#8] 0).n ∧
    (live [0xB1#8] 0).pos + 1 = (live [0xB1#8] 0).n ∧
    (live [0xB9#8, 0xF4#8, 0xFF#8] 0).pos + 2 < (live [0xB9#8, 0xF4#8, 0xFF#8] 0).n ∧
    ((live [0xB9#8, 0xF4#8] 0).pos < (live [0xB9#8, 0xF4#8] 0).n ∧
      (live [0xB9#8, 0xF4#8] 0).n ≤ (live [0xB9#8, 0xF4#8] 0).pos + 2) := by decide

/-- No ModRM byte; byte and word immediates there and short after the address; no address. -/
theorem witness_ImmMemBytesDecode :
    ((live [0xC7#8] 0).buf.read 0 &&& 0xFE#8 = 0xC6#8 ∧
      (live [0xC7#8] 0).pos + 1 = (live [0xC7#8] 0).n) ∧
    (resolve 0b00#2 0b011#3 .byte (live [0xC6#8, 0x03#8, 0x07#8] 2)
        = .ok (.mem (.base 0b011#3 0 0)) (live [0xC6#8, 0x03#8, 0x07#8] 2) ∧
      (live [0xC6#8, 0x03#8, 0x07#8] 2).pos < (live [0xC6#8, 0x03#8, 0x07#8] 2).n) ∧
    (resolve 0b00#2 0b011#3 .byte (live [0xC6#8, 0x03#8] 2)
        = .ok (.mem (.base 0b011#3 0 0)) (live [0xC6#8, 0x03#8] 2) ∧
      (live [0xC6#8, 0x03#8] 2).pos = (live [0xC6#8, 0x03#8] 2).n) ∧
    (resolve 0b00#2 0b110#3 .word (live storeImmBytes 2)
        = .ok (.mem (.direct 1000#16)) (live storeImmBytes 4) ∧
      (live storeImmBytes 4).pos + 1 < (live storeImmBytes 4).n) ∧
    (resolve 0b00#2 0b110#3 .word (live (storeImmBytes.take 5) 2)
        = .ok (.mem (.direct 1000#16)) (live (storeImmBytes.take 5) 4) ∧
      (live (storeImmBytes.take 5) 4).n ≤ (live (storeImmBytes.take 5) 4).pos + 1) ∧
    resolve 0b00#2 0b110#3 .word (live (storeImmBytes.take 3) 2)
      = .exhausted (live (storeImmBytes.take 3) 2) := by decide

theorem witness_AccMemBytesDecode :
    (live [0xA1#8, 0xFB#8, 0x09#8] 0).buf.read 0 &&& 0xFC#8 = 0xA0#8 ∧
    (live [0xA1#8, 0xFB#8, 0x09#8] 0).pos + 2 < (live [0xA1#8, 0xFB#8, 0x09#8] 0).n ∧
    ((live [0xA1#8, 0xFB#8] 0).pos < (live [0xA1#8, 0xFB#8] 0).n ∧
      (live [0xA1#8, 0xFB#8] 0).n ≤ (live [0xA1#8, 0xFB#8] 0).pos + 2) := by decide

theorem witness_RequestsThatDecodeNothing :
    ({ live [0xB8#8] 1 with status := .error, errKind := .truncated, errByte := 0xB8#8 } : State).status
      = .error ∧
    ({ live [] 0 with status := .ended } : State).status = .ended ∧
    ((live loadBytes 4).status = .ready ∧ (live loadBytes 4).pos = (live loadBytes 4).n) := by decide

/-- An error of each kind. -/
theorem witness_ErrorEntryLatches :
    (live [0xB8#8, 0x01#8] 0).status = .ready ∧
    step (live [0xB8#8, 0x01#8] 0)
      = .next (((live [0xB8#8, 0x01#8] 0).advance 1).fail .truncated 0 0xB8#8 1) ∧
    (((live [0xB8#8, 0x01#8] 0).advance 1).fail .truncated 0 0xB8#8 1).resp
      = some (.error .truncated (errOffsetOf Config.errOffsetMode 0 1) 0xB8#8) ∧
    step (live loadBytes 3)
      = .next (((live loadBytes 3).advance 1).fail .unsupportedOpcode 3 0x90#8 3) ∧
    (((live loadBytes 3).advance 1).fail .unsupportedOpcode 3 0x90#8 3).resp
      = some (.error .unsupportedOpcode (errOffsetOf Config.errOffsetMode 3 3) 0x90#8) :=
  ⟨rfl, rfl, rfl, rfl, rfl⟩

theorem witness_RecordAdvancesByLength :
    (live loadBytes 0).status = .ready ∧
    step (live loadBytes 0) = .next (answered (live loadBytes 0) 3 (recordOf load)) ∧
    (answered (live loadBytes 0) 3 (recordOf load)).resp = some (.instr (recordOf load)) :=
  ⟨rfl, rfl, rfl⟩

theorem witness_StepWritesOnlyCursorAndLatches :
    step (live loadBytes 0) = .next (answered (live loadBytes 0) 3 (recordOf load)) ∧
    (live loadBytes 0).pos ≤ (live loadBytes 0).n ∧
    (answered (live loadBytes 0) 3 (recordOf load)).status ≠ .error :=
  ⟨rfl, by decide, by decide⟩

/-- The state in the middle of a pass, a record answered. -/
theorem witness_StepKeepsInvariant :
    (answered (live loadBytes 0) 3 (recordOf load)).Inv ∧
    step (answered (live loadBytes 0) 3 (recordOf load))
      = .next (((live loadBytes 3).advance 1).fail .unsupportedOpcode 3 0x90#8 3) where
  left :=
    { buf := by constructor <;> decide
      posInBuffer := by decide
      ended := by decide
      errKind := by decide
      errOffset := by decide
      errZero := by decide
      resp := by
        refine ⟨rfl, trivial, ?_, by simp [load, recordOf, movRegRmRecord, mkRecord, orderRmReg], rfl⟩
        right; left; decide }
  right := rfl

theorem witness_ResetRestoresEveryBlock :
    (live loadBytes 3).bufLegal ∧ hostAct .reset (live loadBytes 3) = .next (booted loadBytes) :=
  ⟨by constructor <;> decide, rfl⟩

theorem witness_PassEndsWithinBound :
    (live loadBytes 0).status = .ready ∧ (live loadBytes 0).pos ≤ (live loadBytes 0).n ∧
    passBound ((live loadBytes 0).n - (live loadBytes 0).pos) ≤ 3 := by decide

/-- Two complete instructions: both sides of the equivalence hold. -/
theorem witness_PassEndsCleanlyIffBytesSplit :
    (∀ i ∈ [load, storeImm], i.wf = true) ∧
    loadBytes.take 3 ++ storeImmBytes = [load, storeImm].flatMap encode ∧
    (passOver (loadBytes.take 3 ++ storeImmBytes)).1.getLast? = some .ended := by decide

theorem witness_PassReportsFirstFailure :
    (∀ i ∈ [load], i.wf = true) ∧ 3 = ([load].flatMap encode).length ∧
    decode [0x90#8] = .unsupported 0x90#8 ∧ decode [0xB8#8, 0x01#8] = .truncated 0xB8#8 1 := by decide

/-- Two blocks with the same bytes, one in the middle of a pass. -/
theorem witness_PassDependsOnBufferAlone :
    (live loadBytes 0).n = (live loadBytes 3).n ∧ live loadBytes 0 ≠ live loadBytes 3 ∧
    ∀ a, a < (live loadBytes 0).n → (live loadBytes 0).buf.read a = (live loadBytes 3).buf.read a :=
  ⟨rfl, by decide, fun _ _ => rfl⟩

/-- An offset past a placed buffer of one byte. -/
theorem witness_PlacedBufferReadsBack : ([0x12#8] : List Byte).length ≤ 1 := by decide

/-- A live block, one that is not, and a buffer on each side of `N_MAX`. -/
theorem witness_HostMisuseIsRefused :
    (live loadBytes 0).status = .ready ∧ (live [] 0).finish.status ≠ .ready ∧
    ([] : List Byte).length ≤ Config.nMax ∧
    ¬ (List.replicate (Config.nMax + 1) 0x00#8).length ≤ Config.nMax :=
  ⟨rfl, by decide, by simp, by simp⟩

theorem witness_RenderedLineForms :
    ((0 : Int) < 65535 ∧ (-128 : Int) < 0 ∧ disp8Value 0x80#8 < 0) ∧
    (∀ v w, Operand.reg ⟨.word, 0b011#3⟩ ≠ .imm v w) ∧
    (∀ v w, Operand.mem (.direct 0#16) ≠ .imm v w) ∧
    Response.final .ended = true ∧ Response.final (.error .truncated 9 0xB8#8) = true :=
  ⟨by decide, fun _ _ => nofun, fun _ _ => nofun, rfl, rfl⟩

theorem witness_DecimalHasNoLeadingZeros : decimal 40960 = "40960".toList ∧ 40960 ≠ 0 := by decide

theorem witness_RequestTouchesOneBlock :
    requestTo 1 [live loadBytes 0, live loadBytes 0]
      = .next [live loadBytes 0, answered (live loadBytes 0) 3 (recordOf load)] := rfl

end Sys2Proof.Tests
end

section

namespace Sys2Proof.Machine

/-- A register named from its identifier is encoded as that identifier again (R18): the eight codes of
each width's row of the table. -/
@[simp] theorem RegId.id_name (r : RegId) : r.name.id = r := by
  obtain ⟨w, code⟩ := r
  cases w with
  | byte => revert code; decide
  | word => revert code; decide

/-- The identifier of a register names that register again (R18): the sixteen names. -/
@[simp] theorem RegName.name_id (n : RegName) : n.id.name = n := by
  cases n <;> rfl

/-- Settles O9: encoding and decoding a register are inverse both ways. -/
theorem registerTableIsBijection : Obligations.RegisterTableIsBijection :=
  ⟨RegId.id_name, RegName.name_id⟩

end Sys2Proof.Machine
end

section
/-! The cursor's reads (R30 to R33): each is one length check, and either consumes nothing or advances
`POS` by its width. -/

namespace Sys2Proof

/-- Sign extension keeps the signed value of the byte (R7, R32). -/
@[simp] theorem sext16_toInt (b : Byte) : (sext16 b).toInt = b.toInt :=
  BitVec.toInt_signExtend_of_le (by decide)

end Sys2Proof

namespace Sys2Proof.Machine

/-- A read of width `k` begun in `s`: when it fails the state is still `s`, when it succeeds the state is
`s` with `POS` advanced by `k` (R33). -/
def ReadResult.Takes {α : Type} (r : ReadResult α) (s : State) (k : Nat) : Prop :=
  (∀ t, r = .exhausted t → t = s) ∧ ∀ v t, r = .ok v t → t = s.advance k

/-- A length check of `k` bytes before the bytes are consumed gives a read of width `k`. -/
theorem ReadResult.takes_of_lengthCheck {α : Type} {r : ReadResult α} {s : State} {k : Nat} {v : α}
    (hr : r = if s.n - s.pos < k then .exhausted s else .ok v (s.advance k)) : r.Takes s k := by
  subst hr
  by_cases h : s.n - s.pos < k
  · simp [Takes, h, eq_comm]
  · simp [Takes, h, eq_comm]

theorem readU8_takes (s : State) : (readU8 s).Takes s 1 :=
  ReadResult.takes_of_lengthCheck (readU8_eq s)

theorem readU16LE_takes (s : State) : (readU16LE s).Takes s 2 :=
  ReadResult.takes_of_lengthCheck (readU16LE_eq s)

theorem readS8_takes (s : State) : (readS8 s).Takes s 1 :=
  ReadResult.takes_of_lengthCheck (readS8_eq s)

/-- Settles O11: the cursor is either at the end, where the read is short, or before it, where one byte
fits. -/
theorem readU8TakesNextByte : Obligations.ReadU8TakesNextByte := by
  intro s hp
  split
  case isTrue hend => exact readU8_of_short hend.ge
  case isFalse hne => exact readU8_of_fits (Nat.lt_of_le_of_ne hp hne)

/-- Settles O12: short and fitting reads by the length check, the value by `joinLE_toNat`. -/
theorem readU16LETakesLowByteFirst : Obligations.ReadU16LETakesLowByteFirst := by
  intro s _
  refine ⟨readU16LE_of_short, fun hfits => ⟨_, readU16LE_of_fits hfits, ?_⟩⟩
  exact joinLE_toNat _ _

/-- Settles O13: the widened byte has the byte's own signed value, so its range is that of 8 bits. -/
theorem readS8SignExtends : Obligations.ReadS8SignExtends := by
  intro s _
  refine ⟨fun hend => readS8_of_short hend.ge, fun hfits => ⟨_, readS8_of_fits hfits, ?_⟩⟩
  rw [sext16_toInt]
  generalize s.buf.read s.pos = b
  have hlo : -128 ≤ b.toInt := BitVec.le_toInt b
  have hhi : b.toInt < 128 := BitVec.toInt_lt
  refine ⟨rfl, hlo, Int.le_of_lt_add_one hhi, ?_⟩
  rintro rfl
  decide

/-- Settles O14: each of the three reads takes exactly its width or nothing. -/
theorem failedReadsConsumeNothing : Obligations.FailedReadsConsumeNothing := by
  intro s t
  obtain ⟨hu8Short, hu8⟩ := readU8_takes s
  obtain ⟨hu16Short, hu16⟩ := readU16LE_takes s
  obtain ⟨hs8Short, hs8⟩ := readS8_takes s
  exact ⟨hu8Short t, hu16Short t, hs8Short t, fun v => hu8 v t, fun v => hu16 v t, fun v => hs8 v t⟩

end Sys2Proof.Machine
end

section
/-! The ModRM `reg` field of `MOV r/m, imm` (R59): the decoder copies it into the term, and the meaning does
not read it. -/

namespace Sys2Proof

/-- A decoder's answer with the ignored `reg` field of a `MOV r/m, imm` replaced by `ign`; every other answer
is left as it is. -/
def Decoded.setIgnoredReg (ign : Code3) : Decoded → Decoded
  | .instr (.movRmImm w _ rm v) rest => .instr (.movRmImm w ign rm v) rest
  | d => d

/-- In class `IMM_MEM` the ModRM `reg` field decides nothing but its own copy in the term (R59): the three
reads after it go by `mod`, `rm` and the opcode byte alone. -/
theorem decode_immMem_eq_setIgnoredReg {op : Byte} (hop : classify op = .immMem) (mod : BitVec 2)
    (a b rm : Code3) (bs : List Byte) :
    decode (op :: modRM mod b rm :: bs) = (decode (op :: modRM mod a rm :: bs)).setIgnoredReg b := by
  simp only [decode, hop, decodeImmMem, takeU8, modField_modRM, regField_modRM, rmField_modRM]
  cases takeRmMode mod rm bs with
  | none => rfl
  | some r =>
    obtain ⟨m, tl⟩ := r
    dsimp only
    cases takeImm (opWidth op) tl <;> rfl

end Sys2Proof

namespace Sys2Proof.Machine

/-- The meaning of `MOV r/m, imm`, written without its ignored field `ign` (R92, R93). -/
theorem exec_movRmImm (w : Width) (ign : Code3) (rm : RmMode) (v : Word) (s : State) :
    exec (.movRmImm w ign rm v) s
      = s.routine (0b1100011#7 ++ w.bit) [1, rm.len, w.immLen] (movRmImmRecord w rm v) := rfl

/-- Settles O32: two values of the field have one meaning, and a decoding for one value is the decoding for
the other with the field replaced. -/
theorem ignoredRegFieldChangesNothing : Obligations.IgnoredRegFieldChangesNothing := by
  refine ⟨fun w a b rm v s => ?_, fun op mod a b rm bs hop => ?_⟩
  · rw [exec_movRmImm, exec_movRmImm]
  · have hdecode := decode_immMem_eq_setIgnoredReg hop mod a b rm bs
    constructor
    · intro w m v rest ha
      rw [hdecode, ha, Decoded.setIgnoredReg]
    · intro used ha
      rw [hdecode, ha]
      rfl

end Sys2Proof.Machine
end

section
/-! The addressing-mode resolver (R65 to R69): an equation per mode, from which each statement follows by
what the cursor's read answers. -/

namespace Sys2Proof.Machine

/-- Mode 11 is the register of the width, whatever `rm` is (R65). -/
@[simp] theorem resolve_mod11 (rm : Code3) (w : Width) (s : State) :
    resolve 0b11#2 rm w s = .ok (.reg ⟨w, rm⟩) s := rfl

/-- Mode 00 outside the exception of `rm = 110` reads no displacement (R66). -/
theorem resolve_mod00_of_ne {rm : Code3} (hrm : rm ≠ 0b110#3) (w : Width) (s : State) :
    resolve 0b00#2 rm w s = .ok (.mem (.base rm 0 0)) s := by
  simp [resolve, hrm]

/-- Mode 00 with `rm = 110` is the word read as an address (R67). -/
@[simp] theorem resolve_mod00_direct (w : Width) (s : State) :
    resolve 0b00#2 0b110#3 w s = (readU16LE s).bind fun a t => .ok (.mem (.direct a)) t := rfl

/-- Mode 10 is a base expression with the word read, taken as unsigned (R69). -/
@[simp] theorem resolve_mod10 (rm : Code3) (w : Width) (s : State) :
    resolve 0b10#2 rm w s =
      (readU16LE s).bind fun v t => .ok (.mem (.base rm (v.toNat : Int) 2)) t := rfl

/-- A displacement of 0 is not rendered, however many bytes encode it (R103). -/
@[simp] theorem eaText_base_zero (rm : Code3) (size : Nat) :
    eaText (.base rm 0 size) = ['['] ++ baseText rm ++ [']'] := by
  simp [eaText, dispText]

/-- Settles O15: the mode's equation, and the register table's two entries for 110 and the word entry for
001. -/
theorem resolveRegisterMode : Obligations.ResolveRegisterMode :=
  ⟨resolve_mod11, rfl, rfl, rfl⟩

/-- Settles O16: the mode's equation outside the exception; the rendered example is BX + SI. -/
theorem resolveBaseWithoutDisplacement : Obligations.ResolveBaseWithoutDisplacement :=
  ⟨fun _ w s hrm => resolve_mod00_of_ne hrm w s, by decide⟩

/-- Settles O17: the address is the word `ReadU16LE` takes, and its failure is the resolver's. -/
theorem resolveDirectAddress : Obligations.ResolveDirectAddress := by
  refine ⟨fun w s hp => ?_, by decide⟩
  obtain ⟨hshort, hfits⟩ := readU16LETakesLowByteFirst s hp
  constructor
  · intro h
    simp [hshort h]
  · intro h
    obtain ⟨a, hread, hvalue⟩ := hfits h
    exact ⟨a, by simp [hread], hvalue⟩

/-- Settles O19: the displacement is the unsigned value of the word `ReadU16LE` takes, so its range is that
of 16 bits. -/
theorem resolveWordDisplacement : Obligations.ResolveWordDisplacement := by
  refine ⟨fun rm w s hp => ?_, fun rm => eaText_base_zero rm 2, by decide⟩
  obtain ⟨hshort, hfits⟩ := readU16LETakesLowByteFirst s hp
  constructor
  · intro h
    simp [hshort h]
  · intro h
    obtain ⟨v, hread, hvalue⟩ := hfits h
    have hrange : v.toNat < 65536 := v.isLt
    exact ⟨v.toNat, by simp [hread], by omega, by omega, by omega⟩

end Sys2Proof.Machine
end

section
/-! Decimal numbers (R109): the library's digits to base 10, with the first digit of a number above zero
never `0`. -/

namespace Sys2Proof.Machine

@[simp] theorem decimal_ne_nil (n : Nat) : decimal n ≠ [] := Nat.toDigits_ne_nil

/-- A number below ten is its one digit. -/
theorem decimal_of_lt_ten {n : Nat} (h : n < 10) : decimal n = [n.digitChar] :=
  Nat.toDigits_of_lt_base h

/-- A larger number is that of its tens, and after it the digit of its ones. -/
theorem decimal_of_ten_le {n : Nat} (h : 10 ≤ n) :
    decimal n = decimal (n / 10) ++ [(n % 10).digitChar] :=
  Nat.toDigits_of_base_le (by decide) h

/-- The characters of a decimal number are the ASCII digits, 48 to 57. -/
theorem decimal_mem_range {n : Nat} {c : Char} (hc : c ∈ decimal n) : 48 ≤ c.toNat ∧ c.toNat ≤ 57 := by
  have hdigit : c.isDigit = true := Nat.isDigit_of_mem_toDigits (by decide) (by decide) hc
  exact Char.isDigit_iff_toNat.mp hdigit

/-- Read from the most significant digit on, a decimal number spells its value. -/
theorem foldl_decimal (n : Nat) :
    (decimal n).foldl (fun a c => 10 * a + (c.toNat - 48)) 0 = n :=
  Nat.ofDigitChars_eq_foldl.symm.trans Nat.ofDigitChars_ten_toDigits

/-- No leading zero: the first digit is that of the tens, which stay above zero, down to one digit. -/
theorem decimal_head?_ne_zero {n : Nat} (hn : n ≠ 0) : (decimal n).head? ≠ some '0' := by
  induction n using Nat.strongRecOn with
  | ind n ih =>
    rcases Nat.lt_or_ge n 10 with hlt | hge
    · simpa [decimal_of_lt_ten hlt] using hn
    · have htens : (decimal (n / 10)).head? ≠ some '0' := ih (n / 10) (by omega) (by omega)
      rwa [decimal_of_ten_le hge, List.head?_append_of_ne_nil _ (decimal_ne_nil _)]

/-- Settles O58: the digits and their value from the library's base-10 digits, and the first digit by
induction on the number. -/
theorem decimalHasNoLeadingZeros : Obligations.DecimalHasNoLeadingZeros := fun n =>
  ⟨decimal_ne_nil n, fun _ hc => decimal_mem_range hc, foldl_decimal n, decimal_head?_ne_zero,
    decimal_of_lt_ten (by decide)⟩

end Sys2Proof.Machine
end

section
/-! The formatter's forms (R100 to R110): what each kind of displacement, source operand and response is
rendered as. -/

namespace Sys2Proof.Machine

/-- Settles O56: the two rows of the register table and the row of base expressions, each at its eight
codes. -/
theorem registerAndBaseSpellings : Obligations.RegisterAndBaseSpellings := by
  refine ⟨?byteRow, ?wordRow, ?baseRow⟩
  case byteRow => decide
  case wordRow => decide
  case baseRow => decide

/-- A positive displacement is written after ` + ` (R104). -/
theorem dispText_of_pos {d : Int} (hd : 0 < d) : dispText d = [' ', '+', ' '] ++ decimal d.natAbs := by
  rw [dispText, if_neg hd.ne', if_pos hd]

/-- A negative displacement is its magnitude after ` - ` (R105). -/
theorem dispText_of_neg {d : Int} (hd : d < 0) : dispText d = [' ', '-', ' '] ++ decimal d.natAbs := by
  rw [dispText, if_neg hd.ne, if_neg hd.le.not_gt]

/-- A memory operand with a base expression is its base and displacement between brackets. -/
theorem eaText_base (rm : Code3) (d : Int) (size : Nat) :
    eaText (.base rm d size) = ['['] ++ baseText rm ++ dispText d ++ [']'] := rfl

/-- A displacement byte is at least -128 (R52). -/
theorem neg_128_le_disp8Value (b : Byte) : -128 ≤ disp8Value b := by
  rw [disp8Value, sext16_toInt]
  exact BitVec.le_toInt b

/-- An immediate into memory follows its size word (R108). -/
theorem sourceText_mem_imm (ea : EffAddr) (v : Word) (w : Width) (h : SizeHint) :
    sourceText (.mem ea) (.imm v w) h = hintText h ++ decimal v.toNat := rfl

/-- A source that is no immediate is rendered alone, whatever the destination and the hint (R100). -/
theorem sourceText_of_not_imm (dst : Operand) {src : Operand} (h : SizeHint)
    (hsrc : ∀ v w, src ≠ .imm v w) : sourceText dst src h = operandText src := by
  cases src with
  | reg r => cases dst <;> rfl
  | mem ea => cases dst <;> rfl
  | imm v w => exact absurd rfl (hsrc v w)

/-- The line of a record (R100). -/
theorem render_mk (dst src : Operand) (h : SizeHint) :
    render { mnemonic := .mov, dst := dst, src := src, hint := h } =
      ['m', 'o', 'v', ' '] ++ operandText dst ++ [',', ' '] ++ sourceText dst src h := rfl

/-- The line of an immediate into memory: its size word stands between the comma and the value (R108). -/
theorem render_mem_imm (ea : EffAddr) (v : Word) (w : Width) (h : SizeHint) :
    render { mnemonic := .mov, dst := .mem ea, src := .imm v w, hint := h } =
      ['m', 'o', 'v', ' '] ++ eaText ea ++ ([',', ' '] ++ hintText h) ++ decimal v.toNat := by
  simp only [render_mk, sourceText_mem_imm, operandText, List.append_assoc]

/-- The response that ends a pass has no line (R110). -/
theorem responseLine_of_final {r : Response} (hr : r.final = true) : responseLine r = none := by
  cases r with
  | instr i => cases hr
  | ended => rfl
  | error kind offset byte => rfl

/-- The lines of `Instr` responses are their records' lines, in order (R110). -/
theorem passLines_map_instr (rs : List Record) : passLines (rs.map Response.instr) = rs.map render := by
  induction rs with
  | nil => rfl
  | cons r rs ih => exact congrArg (render r :: ·) ih

/-- The final response of a pass adds no line (R110). -/
theorem passLines_append_final (xs : List Response) {r : Response} (hr : r.final = true) :
    passLines (xs ++ [r]) = passLines xs := by
  simp [passLines, responseLine_of_final hr]

/-- Settles O57: an equation per form of displacement, source and response. -/
theorem renderedLineForms : Obligations.RenderedLineForms := by
  refine ⟨eaText_base_zero, fun rm d size hd => ?pos, fun rm d size hd => ?neg,
    fun v => Int.natCast_nonneg _, fun b hb => ?magnitude, fun _ => rfl, fun x v w h => rfl,
    fun ea v w => ⟨render_mem_imm ea v w .byte, render_mem_imm ea v w .word⟩, fun dst src h hsrc => ?noImm,
    fun rs r hr => ?lines⟩
  case pos => simp only [eaText_base, dispText_of_pos hd, List.append_assoc]
  case neg => simp only [eaText_base, dispText_of_neg hd, List.append_assoc]
  case magnitude =>
    have hlo : -128 ≤ disp8Value b := neg_128_le_disp8Value b
    omega
  case noImm => rw [render_mk, sourceText_of_not_imm dst h hsrc]
  case lines => rw [passLines_append_final _ hr, passLines_map_instr]

end Sys2Proof.Machine
end

section
/-! A pass depends on the bytes below `N` alone (R139). The block with another buffer list in place of its own
takes every step the block takes, as long as both lists read alike below `N`: the decoder sees the buffer
through the window alone, and no later stage reads it. -/

namespace Sys2Proof.Machine

/-- Two buffer lists read alike at every offset below `n`. -/
def Memory.AgreeBelow (m m' : Memory) (n : Nat) : Prop := ∀ a, a < n → m.read a = m'.read a

/-- The block with another buffer list in place of its own. -/
def State.withBuf (s : State) (m : Memory) : State := { s with buf := m }

@[simp] theorem State.withBuf_buf (s : State) (m : Memory) : (s.withBuf m).buf = m := rfl
@[simp] theorem State.withBuf_n (s : State) (m : Memory) : (s.withBuf m).n = s.n := rfl
@[simp] theorem State.withBuf_pos (s : State) (m : Memory) : (s.withBuf m).pos = s.pos := rfl
@[simp] theorem State.withBuf_status (s : State) (m : Memory) : (s.withBuf m).status = s.status := rfl
@[simp] theorem State.withBuf_resp (s : State) (m : Memory) : (s.withBuf m).resp = s.resp := rfl

@[simp] theorem State.withBuf_errorResponse (s : State) (m : Memory) :
    (s.withBuf m).errorResponse = s.errorResponse := rfl
@[simp] theorem State.withBuf_advance (s : State) (m : Memory) (k : Nat) :
    (s.withBuf m).advance k = (s.advance k).withBuf m := rfl
@[simp] theorem State.withBuf_respond (s : State) (m : Memory) (r : Response) :
    (s.withBuf m).respond r = (s.respond r).withBuf m := rfl
@[simp] theorem State.withBuf_fail (s : State) (m : Memory) (kind : ErrKind) (start : Nat) (op : Byte)
    (p : Nat) : (s.withBuf m).fail kind start op p = (s.fail kind start op p).withBuf m := rfl
@[simp] theorem State.withBuf_finish (s : State) (m : Memory) :
    (s.withBuf m).finish = s.finish.withBuf m := rfl

/-- Reset keeps `BUF` and `N` alone (R128), so after it a block is determined by them. -/
theorem State.resetBlock_eq_withBuf {s t : State} (hn : s.n = t.n) :
    t.resetBlock = s.resetBlock.withBuf t.buf := by
  simp [resetBlock, withBuf, hn]

/-- What reading a row of fields comes to, with another buffer list in its state. -/
def Consumed.withBuf (m : Memory) : Consumed → Consumed
  | .all s => .all (s.withBuf m)
  | .short s => .short (s.withBuf m)

/-- A step's outcome with another buffer list in its next state. -/
def outcomeWithBuf (m : Memory) :
    Host.Outcome State Fault Refusal → Host.Outcome State Fault Refusal
  | .next s => .next (s.withBuf m)
  | .fault r => .fault r
  | .refused r => .refused r

/-! ### Every stage of a request but the decoder ignores the buffer's contents -/

theorem State.consumeAll_withBuf (ks : List Nat) (s : State) (m : Memory) :
    (s.withBuf m).consumeAll ks = (s.consumeAll ks).withBuf m := by
  induction ks generalizing s with
  | nil => rfl
  | cons k ks ih =>
    by_cases h : s.n - s.pos < k
    · simp [consumeAll, consume_eq, h, Consumed.withBuf]
    · simp [consumeAll, consume_eq, h, ih]

theorem State.routine_withBuf (s : State) (m : Memory) (op : Byte) (ks : List Nat) (r : Record) :
    (s.withBuf m).routine op ks r = outcomeWithBuf m (s.routine op ks r) := by
  by_cases h : s.pos < s.n
  · cases hc : (s.advance 1).consumeAll ks <;>
      simp [routine, h, consumeAll_withBuf, hc, Consumed.withBuf, outcomeWithBuf]
  · simp [routine, h, outcomeWithBuf]

theorem exec_withBuf (i : Instr) (s : State) (m : Memory) :
    exec i (s.withBuf m) = outcomeWithBuf m (exec i s) := by
  simp only [exec_eq_routine, State.routine_withBuf]

/-! ### The decoder sees the bytes below `N` alone -/

theorem State.window_withBuf {s : State} {m : Memory} (h : s.buf.AgreeBelow m s.n) :
    (s.withBuf m).window = s.window := by
  refine List.map_congr_left fun k hk => (h (s.pos + k) ?_).symm
  have hk : k < min maxLength (s.n - s.pos) := List.mem_range.1 hk
  omega

theorem step_withBuf {s : State} {m : Memory} (h : s.buf.AgreeBelow m s.n) :
    step (s.withBuf m) = outcomeWithBuf m (step s) := by
  simp only [step, request, State.withBuf_status, State.withBuf_pos, State.withBuf_n,
    State.window_withBuf h, exec_withBuf]
  cases s.status with
  | error => rfl
  | ended => rfl
  | ready =>
    by_cases hend : s.pos = s.n
    · simp [hend, outcomeWithBuf]
    · cases hd : decode s.window <;> simp [hend, outcomeWithBuf]

/-! ### A step keeps the buffer, so agreement lasts through a pass -/

theorem exec_keeps_buffer {i : Instr} {s t : State} (h : exec i s = .next t) :
    t.buf = s.buf ∧ t.n = s.n := by
  rw [exec_eq_routine] at h
  obtain ⟨-, he⟩ | ⟨-, -, k, -, he, -⟩ | ⟨-, he⟩ := s.routine_cases i.opcode i.fields (recordOf i)
  all_goals cases he.symm.trans h
  · exact ⟨rfl, rfl⟩
  · exact ⟨rfl, rfl⟩

theorem step_keeps_buffer {s t : State} (h : step s = .next t) : t.buf = s.buf ∧ t.n = s.n := by
  obtain ⟨-, he⟩ | ⟨-, he⟩ | ⟨-, -, he⟩ | ⟨-, -, i, rest, -, he⟩ | ⟨-, -, op, -, he⟩ |
    ⟨-, -, op, used, -, he⟩ | ⟨-, -, he⟩ := step_cases s
  case inr.inr.inr.inl => exact exec_keeps_buffer (he.symm.trans h)
  all_goals cases he.symm.trans h
  all_goals exact ⟨rfl, rfl⟩

/-- A pass answers alike on two buffer lists that read alike below `N`. -/
theorem runPass_withBuf (k : Nat) {s : State} {m : Memory} (h : s.buf.AgreeBelow m s.n) :
    (runPass k (s.withBuf m)).1 = (runPass k s).1 := by
  induction k generalizing s with
  | zero => rfl
  | succ k ih =>
    simp only [runPass, step_withBuf h]
    cases hs : step s with
    | fault r => rfl
    | refused r => rfl
    | next t =>
      obtain ⟨hbuf, hn⟩ := step_keeps_buffer hs
      have hrest : (runPass k (t.withBuf m)).1 = (runPass k t).1 := ih (by rwa [hbuf, hn])
      simp only [outcomeWithBuf, State.withBuf_resp, hrest]
      split <;> rfl

/-- Settles O53: after reset the two blocks differ in their buffer lists alone, which read alike below `N`. -/
theorem passDependsOnBufferAlone : Obligations.PassDependsOnBufferAlone := by
  intro k s t hn hbytes
  rw [State.resetBlock_eq_withBuf hn]
  exact (runPass_withBuf k (s := s.resetBlock) hbytes).symm

end Sys2Proof.Machine
end

section
/-! Encoding and decoding are inverse (R43 to R54, R76 to R84): each constructor's opcode byte spells its class,
direction and width, and an opcode byte of a class is spelt by them. -/

namespace Sys2Proof

open Laws.OpcodeClass

/-- The matcher's verdict on an instruction's opcode byte is the instruction's class (R76, R84). -/
@[simp] theorem classify_opcode (i : Instr) : classify i.opcode = classOf i := by
  cases i with
  | movRmReg w reg rm => exact movRmReg w reg rm
  | movRegRm w reg rm => exact movRegRm w reg rm
  | movRegImm w r v => exact movRegImm w r v
  | movRmImm w ign rm v => exact movRmImm w ign rm v
  | movAccMem w a => exact movAccMem w a
  | movMemAcc w a => exact movMemAcc w a

/-- No instruction's opcode byte is unmatched. -/
theorem classOf_ne_none (i : Instr) : classOf i ≠ .none := by
  cases i <;> nofun

/-! ### The fields of an opcode byte -/

@[simp] theorem opWidth_append (hi : BitVec 7) (w : Width) : opWidth (hi ++ w.bit) = w := by
  cases w <;> revert hi <;> decide

@[simp] theorem opDir_append (hi : BitVec 7) (w : Width) : opDir (hi ++ w.bit) = hi.getLsbD 0 := by
  cases w <;> revert hi <;> decide

@[simp] theorem immRegWidth_append (w : Width) (r : Code3) :
    immRegWidth (0b1011#4 ++ w.bit ++ r) = w := by
  cases w <;> revert r <;> decide

@[simp] theorem immRegCode_append (w : Width) (r : Code3) :
    immRegCode (0b1011#4 ++ w.bit ++ r) = r := by
  cases w <;> revert r <;> decide

/-- An `RM_REG` opcode byte is spelt by its direction and width (R81). -/
theorem rmReg_opcode : ∀ op : Byte, classify op = .rmReg →
    (if opDir op then 0b1000101#7 else 0b1000100#7) ++ (opWidth op).bit = op := by
  decide

/-- An `ACC_MEM` opcode byte is spelt by its direction and width (R82). -/
theorem accMem_opcode : ∀ op : Byte, classify op = .accMem →
    (if opDir op then 0b1010001#7 else 0b1010000#7) ++ (opWidth op).bit = op := by
  decide

/-- An `IMM_REG` opcode byte is spelt by its width and register (R79). -/
theorem immReg_opcode : ∀ op : Byte, classify op = .immReg →
    0b1011#4 ++ (immRegWidth op).bit ++ immRegCode op = op := by
  decide

/-- An `IMM_MEM` opcode byte is spelt by its width (R80). -/
theorem immMem_opcode : ∀ op : Byte, classify op = .immMem →
    0b1100011#7 ++ (opWidth op).bit = op := by
  decide

/-! ### One direction and the other -/

theorem encode_append (i : Instr) (rest : List Byte) :
    encode i ++ rest = i.opcode :: (i.operandBytes ++ rest) := rfl

/-- An instruction's encoding decodes to it, whatever follows (R43). -/
theorem decode_encode_append (i : Instr) (rest : List Byte) (h : i.wf = true) :
    decode (encode i ++ rest) = .instr i rest := by
  rw [encode_append, decode, classify_opcode]
  cases i with
  | movRmReg w reg rm =>
    simp [classOf, decodeRmReg, Instr.operandBytes, Instr.opcode, takeU8, modField_modRM, regField_modRM,
      rmField_modRM, takeRmMode_tail rm h rest]
  | movRegRm w reg rm =>
    simp [classOf, decodeRmReg, Instr.operandBytes, Instr.opcode, takeU8, modField_modRM, regField_modRM,
      rmField_modRM, takeRmMode_tail rm h rest]
  | movRegImm w r v =>
    simp [classOf, decodeImmReg, Instr.operandBytes, Instr.opcode, takeImm_immBytes w v h rest]
  | movRmImm w ign rm v =>
    simp only [Instr.wf, Bool.and_eq_true] at h
    obtain ⟨hrm, hv⟩ := h
    simp [classOf, decodeImmMem, Instr.operandBytes, Instr.opcode, takeU8, modField_modRM, regField_modRM,
      rmField_modRM, takeRmMode_tail rm hrm, takeImm_immBytes w v hv rest]
  | movAccMem w a =>
    simp [classOf, decodeAccMem, Instr.operandBytes, Instr.opcode, takeU16, joinLE_low_high]
  | movMemAcc w a =>
    simp [classOf, decodeAccMem, Instr.operandBytes, Instr.opcode, takeU16, joinLE_low_high]

/-- Settles O2: the verdict on the opcode byte selects the routine of the instruction's class, which reads back
the fields in their order. -/
theorem decodeOfEncodeIsIdentity : Obligations.DecodeOfEncodeIsIdentity := decode_encode_append

theorem decodeRmReg_instr {op : Byte} (hop : classify op = .rmReg) {bs rest : List Byte} {i : Instr}
    (h : decodeRmReg op bs = .instr i rest) : i.wf = true ∧ op :: bs = encode i ++ rest := by
  have hspell := rmReg_opcode op hop
  unfold decodeRmReg at h
  split at h
  · cases h
  next m tl hm =>
    rw [takeU8_some_iff] at hm
    split at h
    · cases h
    next rm tl' hrm =>
      obtain ⟨hwf, hmod, hrmf, htl⟩ := takeRmMode_some hrm
      cases hd : opDir op
      all_goals
        simp only [hd, Bool.false_eq_true, ↓reduceIte] at h hspell
        cases h
        simp [Instr.wf, hwf, encode, Instr.opcode, Instr.operandBytes, hspell, hmod, hrmf, modRM_fields, hm, htl]

theorem decodeImmReg_instr {op : Byte} (hop : classify op = .immReg) {bs rest : List Byte} {i : Instr}
    (h : decodeImmReg op bs = .instr i rest) : i.wf = true ∧ op :: bs = encode i ++ rest := by
  unfold decodeImmReg at h
  split at h
  · cases h
  next v tl hv =>
    cases h
    obtain ⟨hfits, htl⟩ := takeImm_some hv
    simp [Instr.wf, hfits, encode, Instr.opcode, Instr.operandBytes, immReg_opcode op hop, htl]

theorem decodeImmMem_instr {op : Byte} (hop : classify op = .immMem) {bs rest : List Byte} {i : Instr}
    (h : decodeImmMem op bs = .instr i rest) : i.wf = true ∧ op :: bs = encode i ++ rest := by
  unfold decodeImmMem at h
  split at h
  · cases h
  next m tl hm =>
    rw [takeU8_some_iff] at hm
    split at h
    · cases h
    next rm tl' hrm =>
      obtain ⟨hwf, hmod, hrmf, htl⟩ := takeRmMode_some hrm
      split at h
      · cases h
      next v tl'' hv =>
        cases h
        obtain ⟨hfits, htl'⟩ := takeImm_some hv
        simp [Instr.wf, hwf, hfits, encode, Instr.opcode, Instr.operandBytes, immMem_opcode op hop, hmod, hrmf,
          modRM_fields, hm, htl, htl']

theorem decodeAccMem_instr {op : Byte} (hop : classify op = .accMem) {bs rest : List Byte} {i : Instr}
    (h : decodeAccMem op bs = .instr i rest) : i.wf = true ∧ op :: bs = encode i ++ rest := by
  have hspell := accMem_opcode op hop
  unfold decodeAccMem at h
  split at h
  · cases h
  next a tl ha =>
    rw [takeU16_some_iff] at ha
    cases hd : opDir op
    all_goals
      simp only [hd, Bool.false_eq_true, ↓reduceIte] at h hspell
      cases h
      simp [Instr.wf, encode, Instr.opcode, Instr.operandBytes, hspell, ha]

/-- Bytes that decode to an instruction are its encoding, and it is well-formed (R43, R84). -/
theorem decode_instr {bs rest : List Byte} {i : Instr} (h : decode bs = .instr i rest) :
    i.wf = true ∧ bs = encode i ++ rest := by
  cases bs with
  | nil => cases h
  | cons op bs =>
    rw [decode] at h
    split at h
    next hop => exact decodeImmMem_instr hop h
    next hop => exact decodeImmReg_instr hop h
    next hop => exact decodeRmReg_instr hop h
    next hop => exact decodeAccMem_instr hop h
    next => cases h

/-- Settles O3: the opcode byte of each class is spelt by its fields, and every later field that is read is
spelt by the bytes taken for it. -/
theorem decodedBytesAreTheEncoding : Obligations.DecodedBytesAreTheEncoding := fun _ _ _ => decode_instr

end Sys2Proof
end

section
/-! Where an instruction is cut short (R53, R54, R114, R118): the widths of the reads after an opcode byte, the
first of them that does not fit, and everything the decoder answers for a list with an opcode byte. -/

namespace Sys2Proof

open Laws.OpcodeClass

/-- The widths of the reads after the opcode byte `op` when the bytes `bs` follow it (R54): the verdict gives the
row, the first of `bs` is the ModRM byte where the row has one. -/
def operandFields (op : Byte) (bs : List Byte) : List Nat :=
  match classify op with
  | .immMem => [1, dlen (modField (bs.headD 0)) (rmField (bs.headD 0)), (opWidth op).immLen]
  | .immReg => [(immRegWidth op).immLen]
  | .rmReg => [1, dlen (modField (bs.headD 0)) (rmField (bs.headD 0))]
  | .accMem => [2]
  | .none => []

/-- The row read from an encoding is the instruction's own (R54). -/
theorem operandFields_operandBytes (i : Instr) (rest : List Byte) :
    operandFields i.opcode (i.operandBytes ++ rest) = i.fields := by
  rw [operandFields, classify_opcode]
  cases i <;>
    simp [classOf, Instr.operandBytes, Instr.opcode, Instr.fields, RmMode.len, modField_modRM, rmField_modRM]

/-- With `avail` bytes for a row of fields, the first field that does not fit begins `start` bytes into the row
(R118). -/
inductive CutAt : List Nat → Nat → Nat → Prop where
  | here {k avail : Nat} {ks : List Nat} (h : avail < k) : CutAt (k :: ks) avail 0
  | later {k avail start : Nat} {ks : List Nat} (hk : k ≤ avail) (h : CutAt ks (avail - k) start) :
      CutAt (k :: ks) avail (k + start)

theorem CutAt.start_le {ks : List Nat} {avail start : Nat} (h : CutAt ks avail start) : start ≤ avail := by
  induction h with
  | here h => omega
  | later hk h ih => omega

theorem CutAt.lt_sum {ks : List Nat} {avail start : Nat} (h : CutAt ks avail start) : avail < ks.sum := by
  induction h with
  | here h => simp; omega
  | later hk h ih => simp; omega

/-- No opcode byte asks for more than five bytes after it (R43, R55). -/
theorem operandFields_sum_le (op : Byte) (bs : List Byte) : (operandFields op bs).sum ≤ 5 := by
  have hd : ∀ mod rm, dlen mod rm ≤ 2 := by decide
  have hm := hd (modField (bs.headD 0)) (rmField (bs.headD 0))
  have hw : ∀ w : Width, w.immLen ≤ 2 := fun w => by cases w <;> decide
  have := hw (opWidth op)
  have := hw (immRegWidth op)
  unfold operandFields
  split <;> simp only [List.sum_cons, List.sum_nil] <;> omega

/-! ### Everything the decoder answers -/

/-- A routine's answer on the bytes `bs` after the opcode byte `op`: an instruction, or a truncation at the first
field that `bs` cuts short, whatever bytes would have followed. -/
def Decoded.FitsOrCut (d : Decoded) (op : Byte) (bs : List Byte) : Prop :=
  (∃ i rest, d = .instr i rest) ∨
  ∃ start, d = .truncated op (1 + start) ∧ ∀ ext, CutAt (operandFields op (bs ++ ext)) bs.length start

theorem decodeImmReg_fitsOrCut {op : Byte} (hop : classify op = .immReg) (bs : List Byte) :
    (decodeImmReg op bs).FitsOrCut op bs := by
  unfold decodeImmReg
  split
  next hv => exact .inr ⟨0, rfl, fun ext => by
    simpa [operandFields, hop] using CutAt.here ((takeImm_none_iff _ _).1 hv)⟩
  next v tl hv => exact .inl ⟨_, _, rfl⟩

theorem decodeAccMem_fitsOrCut {op : Byte} (hop : classify op = .accMem) (bs : List Byte) :
    (decodeAccMem op bs).FitsOrCut op bs := by
  unfold decodeAccMem
  split
  next ha => exact .inr ⟨0, rfl, fun ext => by
    simpa [operandFields, hop] using CutAt.here ((takeU16_none_iff _).1 ha)⟩
  next a tl ha => exact .inl (by split <;> exact ⟨_, _, rfl⟩)

theorem decodeRmReg_fitsOrCut {op : Byte} (hop : classify op = .rmReg) (bs : List Byte) :
    (decodeRmReg op bs).FitsOrCut op bs := by
  unfold decodeRmReg
  split
  next hm => exact .inr ⟨0, rfl, fun ext => by
    simpa [operandFields, hop] using CutAt.here ((takeU8_none_iff _).1 hm)⟩
  next m tl hm =>
    rw [takeU8_some_iff] at hm
    subst hm
    split
    next hrm => exact .inr ⟨1, rfl, fun ext => by
      rw [operandFields, hop]
      exact .later (by simp) (.here (by simpa using (takeRmMode_none_iff _ _ _).1 hrm))⟩
    next rm tl' hrm => exact .inl (by split <;> exact ⟨_, _, rfl⟩)

theorem decodeImmMem_fitsOrCut {op : Byte} (hop : classify op = .immMem) (bs : List Byte) :
    (decodeImmMem op bs).FitsOrCut op bs := by
  unfold decodeImmMem
  split
  next hm => exact .inr ⟨0, rfl, fun ext => by
    simpa [operandFields, hop] using CutAt.here ((takeU8_none_iff _).1 hm)⟩
  next m tl hm =>
    rw [takeU8_some_iff] at hm
    subst hm
    split
    next hrm => exact .inr ⟨1, rfl, fun ext => by
      rw [operandFields, hop]
      exact .later (by simp) (.here (by simpa using (takeRmMode_none_iff _ _ _).1 hrm))⟩
    next rm tl' hrm =>
      obtain ⟨hwf, hmod, hrmf, htl⟩ := takeRmMode_some hrm
      have hlen : tl.length = dlen (modField m) (rmField m) + tl'.length := by
        rw [htl, List.length_append, rm.tail_length hwf, RmMode.len, hmod, hrmf]
      split
      next hv =>
        have hshort : tl'.length < (opWidth op).immLen := (takeImm_none_iff _ _).1 hv
        refine .inr ⟨1 + (dlen (modField m) (rmField m) + 0), by congr 1; omega, fun ext => ?_⟩
        rw [operandFields, hop]
        exact .later (by simp) (.later (by simp [hlen]) (.here (by simpa [hlen] using hshort)))
      next v tl'' hv => exact .inl ⟨_, _, rfl⟩

/-- Everything the decoder answers for a list with an opcode byte (R84, R114, R115). -/
theorem decode_cons_cases (op : Byte) (bs : List Byte) :
    (classify op = .none ∧ decode (op :: bs) = .unsupported op) ∨
    (classify op ≠ .none ∧ (decode (op :: bs)).FitsOrCut op bs) := by
  rw [decode]
  split
  next hop => exact .inr ⟨by simp [hop], decodeImmMem_fitsOrCut hop bs⟩
  next hop => exact .inr ⟨by simp [hop], decodeImmReg_fitsOrCut hop bs⟩
  next hop => exact .inr ⟨by simp [hop], decodeRmReg_fitsOrCut hop bs⟩
  next hop => exact .inr ⟨by simp [hop], decodeAccMem_fitsOrCut hop bs⟩
  next hop => exact .inl ⟨hop, rfl⟩

/-- A rejection as unsupported is of the first byte, which no pattern matches (R115). -/
theorem decode_unsupported {bs : List Byte} {op : Byte} (h : decode bs = .unsupported op) :
    classify op = .none ∧ bs.head? = some op := by
  cases bs with
  | nil => cases h
  | cons b bs =>
    obtain ⟨hc, he⟩ | ⟨-, ⟨i, rest, he⟩ | ⟨start, he, -⟩⟩ := decode_cons_cases b bs
    all_goals cases he.symm.trans h
    exact ⟨hc, rfl⟩

/-- A truncation is of a matched opcode byte at the first field that is cut short (R114, R118). -/
theorem decode_truncated {bs : List Byte} {op : Byte} {used : Nat} (h : decode bs = .truncated op used) :
    classify op ≠ .none ∧ ∃ tl start, bs = op :: tl ∧ used = 1 + start ∧
      ∀ ext, CutAt (operandFields op (tl ++ ext)) tl.length start := by
  cases bs with
  | nil => cases h
  | cons b bs =>
    obtain ⟨-, he⟩ | ⟨hc, ⟨i, rest, he⟩ | ⟨start, he, hcut⟩⟩ := decode_cons_cases b bs
    all_goals cases he.symm.trans h
    exact ⟨hc, bs, start, rfl, rfl, hcut⟩

/-- A cut-short field begins after the opcode byte and within the list (R114). -/
theorem decode_truncated_used {bs : List Byte} {op : Byte} {used : Nat} (h : decode bs = .truncated op used) :
    bs.head? = some op ∧ 1 ≤ used ∧ used ≤ bs.length := by
  obtain ⟨-, tl, start, rfl, rfl, hcut⟩ := decode_truncated h
  have := (hcut []).start_le
  simp
  omega

/-- Six bytes are enough for any instruction: a list that is truncated is shorter (R43). -/
theorem length_lt_of_decode_truncated {bs : List Byte} {op : Byte} {used : Nat}
    (h : decode bs = .truncated op used) : bs.length < maxLength := by
  obtain ⟨-, tl, start, rfl, -, hcut⟩ := decode_truncated h
  have hlt := (hcut []).lt_sum
  have hle := operandFields_sum_le op (tl ++ [])
  simp only [List.length_cons, maxLength]
  omega

/-! ### Truncation and encodings -/

/-- An encoding cut short is not the encoding of another instruction and more: no encoding begins another. -/
theorem decode_take_encode_ne_instr {i : Instr} (hi : i.wf = true) {k : Nat} (hk : k < i.length) (i' : Instr)
    (rest : List Byte) : decode ((encode i).take k) ≠ .instr i' rest := by
  intro h
  obtain ⟨hi', htake⟩ := decode_instr h
  have hwhole : encode i = encode i' ++ (rest ++ (encode i).drop k) := by
    rw [← List.append_assoc, ← htake, List.take_append_drop]
  have hself : decode (encode i) = .instr i [] := by simpa using decode_encode_append i [] hi
  have hother : decode (encode i) = .instr i' (rest ++ (encode i).drop k) :=
    (congrArg decode hwhole).trans (decode_encode_append i' _ hi')
  have hdrop : (encode i).length ≤ k := by
    have hnil := (Decoded.instr.inj (hother.symm.trans hself)).2
    simpa using (List.append_eq_nil_iff.1 hnil).2
  rw [encode_length i hi] at hdrop
  omega

/-- A proper part of an encoding, opcode byte included, is truncated at the first of the instruction's fields that
does not fit (R114, R118). -/
theorem decode_take_encode {i : Instr} (hi : i.wf = true) {k : Nat} (hk : k + 1 < i.length) :
    ∃ start, decode ((encode i).take (k + 1)) = .truncated i.opcode (1 + start) ∧ CutAt i.fields k start := by
  have hcons : (encode i).take (k + 1) = i.opcode :: i.operandBytes.take k := rfl
  have hlen : (i.operandBytes.take k).length = k := by
    have := encode_length i hi
    simp only [encode, List.length_cons] at this
    rw [List.length_take]
    omega
  obtain ⟨hc, -⟩ | ⟨-, ⟨i', rest, he⟩ | ⟨start, he, hcut⟩⟩ :=
    decode_cons_cases i.opcode (i.operandBytes.take k)
  · exact absurd (classify_opcode i ▸ hc) (classOf_ne_none i)
  · exact absurd (hcons ▸ he) (decode_take_encode_ne_instr hi hk i' rest)
  · have hfields := operandFields_operandBytes i []
    have hcut := hcut (i.operandBytes.drop k)
    rw [List.append_nil] at hfields
    rw [List.take_append_drop, hfields, hlen] at hcut
    exact ⟨start, hcons ▸ he, hcut⟩

/-- A matched opcode byte with five bytes after it decodes to an instruction (R43). -/
theorem decode_instr_of_long {op : Byte} (hop : classify op ≠ .none) {bs : List Byte} (h : 5 ≤ bs.length) :
    ∃ i rest, decode (op :: bs) = .instr i rest := by
  obtain ⟨hc, -⟩ | ⟨-, ⟨i, rest, he⟩ | ⟨start, he, -⟩⟩ := decode_cons_cases op bs
  · exact absurd hc hop
  · exact ⟨i, rest, he⟩
  · have hlt := length_lt_of_decode_truncated he
    simp only [List.length_cons, maxLength] at hlt
    omega

/-- What is truncated is a proper part of an encoding: with enough bytes after it an instruction is there, and
it does not end within the list. -/
theorem exists_encode_of_decode_truncated {bs : List Byte} {op : Byte} {used : Nat}
    (h : decode bs = .truncated op used) :
    ∃ (i : Instr) (k : Nat), i.wf = true ∧ 1 ≤ k ∧ k < i.length ∧ bs = (encode i).take k := by
  obtain ⟨hop, tl, start, rfl, -, -⟩ := decode_truncated h
  obtain ⟨i, rest, hlong⟩ :=
    decode_instr_of_long hop (bs := tl ++ List.replicate 5 0) (by simp)
  obtain ⟨hi, hbytes⟩ := decode_instr hlong
  rw [← List.cons_append] at hbytes
  have hlt : (op :: tl).length < (encode i).length := by
    by_contra hge
    obtain ⟨r, hr⟩ := List.prefix_of_prefix_length_le (List.prefix_append (encode i) rest)
      (hbytes ▸ List.prefix_append (op :: tl) (List.replicate 5 0)) (Nat.le_of_not_lt hge)
    rw [← hr, decode_encode_append i r hi] at h
    cases h
  refine ⟨i, (op :: tl).length, hi, by simp, encode_length i hi ▸ hlt, ?_⟩
  have htake := congrArg (List.take (op :: tl).length) hbytes
  rwa [List.take_left, List.take_append_of_le_length hlt.le] at htake

/-- Settles O4: one direction completes the list to an instruction, the other is that no
encoding begins another. -/
theorem truncatedExactlyWhenCutShort : Obligations.TruncatedExactlyWhenCutShort := by
  refine fun bs => ⟨⟨?_, ?_⟩, fun op used h => decode_truncated_used h⟩
  · rintro ⟨op, used, h⟩
    exact exists_encode_of_decode_truncated h
  · rintro ⟨i, k, hi, hpos, hk, rfl⟩
    obtain ⟨k, rfl⟩ := Nat.exists_eq_add_of_le' hpos
    obtain ⟨start, h, -⟩ := decode_take_encode hi hk
    exact ⟨_, _, h⟩

end Sys2Proof
end

section
/-! The opcode matcher and the table's fixed facts (R55, R57, R76, R77, R83). -/

namespace Sys2Proof

/-- A well-formed instruction is 2 to 6 bytes long (R43, R55). -/
theorem Instr.length_bounds {i : Instr} (h : i.wf = true) : 2 ≤ i.length ∧ i.length ≤ 6 := by
  cases i with
  | movRmReg w reg rm => exact (Laws.LengthBounds.movRmReg w reg rm h).2
  | movRegRm w reg rm => exact (Laws.LengthBounds.movRegRm w reg rm h).2
  | movRegImm w r v => exact (Laws.LengthBounds.movRegImm w r v h).2
  | movRmImm w ign rm v => exact (Laws.LengthBounds.movRmImm w ign rm v h).2
  | movAccMem w a => exact (Laws.LengthBounds.movAccMem w a h).2
  | movMemAcc w a => exact (Laws.LengthBounds.movMemAcc w a h).2

/-- An immediate is one byte or two (R53). -/
theorem Width.immLen_eq (w : Width) : w.immLen = if w = .byte then 1 else 2 := by
  cases w <;> rfl

/-- A list that is an instruction's encoding decodes to it with nothing left. -/
theorem decode_of_eq_encode {bs : List Byte} {i : Instr} (h : i.wf = true ∧ bs = encode i) :
    decode bs = .instr i [] := by
  simpa [h.2] using decode_encode_append i [] h.1

/-- Settles O1: each word is the encoding of the well-formed instruction it stands for. -/
theorem writtenWordsDecode : Obligations.WrittenWordsDecode :=
  ⟨decode_of_eq_encode (by decide), decode_of_eq_encode (by decide), decode_of_eq_encode (by decide),
    decode_of_eq_encode (by decide), decode_of_eq_encode (by decide), decode_of_eq_encode (by decide)⟩

/-- Settles O5: the encoding's length, the sum over the fields and the bounds, then each class's row. -/
theorem instructionLengths : Obligations.InstructionLengths := by
  intro i hi
  obtain ⟨hlo, hhi⟩ := Instr.length_bounds hi
  refine ⟨encode_length i hi, i.length_eq, hlo, hhi, ?_⟩
  cases i with
  | movRmReg w reg rm => rfl
  | movRegRm w reg rm => rfl
  | movRegImm w r v => simp only [Instr.fields, Width.immLen_eq]
  | movRmImm w ign rm v => simp only [Instr.fields, Width.immLen_eq, RmMode.len]
  | movAccMem w a => rfl
  | movMemAcc w a => rfl

/-- Settles O6: the 256 opcode bytes, one by one. -/
theorem opcodeMapOfAllBytes : Obligations.OpcodeMapOfAllBytes := by
  constructor
  · decide
  · decide

/-- An entry hits a byte when the masked bits are its value (R76). -/
theorem Pattern.hits_iff (p : Pattern) (op : Byte) : p.hits op = true ↔ op &&& p.mask = p.value := by
  simp [Pattern.hits]

/-- Settles O7: the pattern list in its order. -/
theorem classifyTakesFirstMatch : Obligations.ClassifyTakesFirstMatch := by
  intro op
  simp only [classify, patterns, firstMatch, Pattern.hits_iff]

/-- Where at most one entry of a list hits a byte, the order of the list does not decide the byte's class. -/
theorem firstMatch_perm {ps qs : List Pattern} (h : ps.Perm qs) (op : Byte)
    (hone : ps.Pairwise fun p q => ¬ (p.hits op ∧ q.hits op)) : firstMatch ps op = firstMatch qs op := by
  induction h with
  | nil => rfl
  | cons p h ih =>
    rw [firstMatch, firstMatch, ih hone.of_cons]
  | swap p q ps =>
    have hpq : ¬ (q.hits op ∧ p.hits op) := (List.pairwise_cons.1 hone).1 p (by simp)
    simp only [firstMatch]
    split
    next hq =>
      have hp : ¬ p.hits op := fun hp => hpq ⟨hq, hp⟩
      rw [if_neg hp]
    next => rfl
  | trans h₁ h₂ ih₁ ih₂ =>
    exact (ih₁ hone).trans (ih₂ ((h₁.pairwise_iff fun hn hqp => hn hqp.symm).1 hone))

/-- No opcode byte is hit by two of the four patterns (R83). -/
theorem patterns_disjoint :
    ∀ op : Byte, patterns.Pairwise fun p q => ¬ (p.hits op ∧ q.hits op) := by
  decide

/-- Settles O8: the four patterns are disjoint, so their order decides nothing. -/
theorem patternOrderDecidesNoByte : Obligations.PatternOrderDecidesNoByte := fun _ hperm op =>
  (firstMatch_perm hperm.symm op (patterns_disjoint op)).symm

end Sys2Proof
end

section
/-! The resolver's remaining mode, the operands of each mode, and what an effective address denotes (R68, R72,
R73). -/

namespace Sys2Proof.Machine

/-- Mode 01 is a base expression with the byte read, sign-extended (R68). -/
@[simp] theorem resolve_mod01 (rm : Code3) (w : Width) (s : State) :
    resolve 0b01#2 rm w s = (readS8 s).bind fun d t => .ok (.mem (.base rm d.toInt 1)) t := rfl

/-- A displacement byte stands for its signed value (R52, R68). -/
@[simp] theorem disp8Value_eq (b : Byte) : disp8Value b = b.toInt := sext16_toInt b

/-- Settles O18: the displacement is the signed value of the byte `ReadS8` takes; the rest are the table's
entries and the rendered example. -/
theorem resolveByteDisplacement : Obligations.ResolveByteDisplacement := by
  refine ⟨fun rm w s hp => ?_, by decide, rfl, by decide, fun rm => eaText_base_zero rm 1⟩
  obtain ⟨hshort, hfits⟩ := readS8SignExtends s hp
  constructor
  · intro h
    simp [hshort h]
  · intro h
    obtain ⟨v, hread, hvalue, hlo, hhi, -⟩ := hfits h
    exact ⟨v.toInt, by simp [hread], hvalue, hlo, hhi⟩

/-- Settles O29: the five forms, the byte's displacement by its signed value. -/
theorem rmOperandForms : Obligations.RmOperandForms := fun w =>
  ⟨fun _ => rfl, fun _ => rfl, fun _ => rfl, fun rm b => by rw [RmMode.operand, disp8Value_eq], fun _ _ => rfl⟩

/-- Settles O21: each mode's read takes the bytes of the mode's tail, and they join to its value. -/
theorem rmOperandIsWhatResolveReads : Obligations.RmOperandIsWhatResolveReads := by
  intro m w s hwf hfits hbytes
  cases m with
  | reg rm => rfl
  | base rm => exact resolve_mod00_of_ne (rm := rm) (by simpa [RmMode.wf] using hwf) w s
  | direct a =>
    have hlo : s.buf.read s.pos = lowByte a := hbytes 0 (by simp [RmMode.tail])
    have hhi : s.buf.read (s.pos + 1) = highByte a := hbytes 1 (by simp [RmMode.tail])
    simp only [RmMode.mod, RmMode.rm, resolve_mod00_direct, readU16LE_of_fits hfits, hlo, hhi, joinLE_low_high]
    rfl
  | disp8 rm b =>
    have hb : s.buf.read s.pos = b := hbytes 0 (by simp [RmMode.tail])
    simp only [RmMode.mod, RmMode.rm, resolve_mod01, readS8_of_fits hfits, hb]
    rfl
  | disp16 rm v =>
    have hlo : s.buf.read s.pos = lowByte v := hbytes 0 (by simp [RmMode.tail])
    have hhi : s.buf.read (s.pos + 1) = highByte v := hbytes 1 (by simp [RmMode.tail])
    simp only [RmMode.mod, RmMode.rm, resolve_mod10, readU16LE_of_fits hfits, hlo, hhi, joinLE_low_high]
    rfl

/-- A base expression denotes the sum of its registers and its displacement modulo 2^16 (R73). -/
theorem EffAddr.denote_base (regs : RegName → Word) (rm : Code3) (d : Int) (n : Nat) :
    EffAddr.denote regs (.base rm d n) = ((baseOf rm).map regs).sum + BitVec.ofInt 16 d := rfl

/-- Settles O22: the eight base expressions; the signed and the unsigned value of a word are equal modulo
2^16. -/
theorem effectiveAddressDenotation : Obligations.EffectiveAddressDenotation := by
  refine ⟨fun regs d n => ?_, fun _ _ => rfl, fun regs rm v n => ?_⟩
  · simp [EffAddr.denote_base, baseOf, baseRegs]
  · rw [EffAddr.denote_base, EffAddr.denote_base, BitVec.ofInt_natCast, BitVec.ofNat_toNat, BitVec.ofInt_toInt,
      BitVec.setWidth_eq]

end Sys2Proof.Machine
end

section
/-! The decoder's reads and the cursor's (R30, R31, R63, R86): on the bytes left at the cursor the decoder of a
list of bytes takes what the spec's pseudocode reads through the cursor, field by field. -/

namespace Sys2Proof.Machine

/-- A field of `k` bytes taken from the bytes at the cursor of `s`, at most `m` of them, and the cursor's read of
it: both succeed where the field fits, and the read's value is `f` of what was taken; else both fail. -/
def SameRead {α β : Type} (s : State) (m k : Nat) (taken : Option (α × List Byte)) (read : ReadResult β)
    (f : α → β) : Prop :=
  (s.pos + k ≤ s.n ∧ ∃ v, taken = some (v, (s.advance k).upTo (m - k)) ∧ read = .ok (f v) (s.advance k)) ∨
  (s.n < s.pos + k ∧ taken = none ∧ read = .exhausted s)

/-- Working on the value on both sides keeps the agreement. -/
theorem SameRead.map {α α' β β' : Type} {s : State} {m k : Nat} {taken : Option (α × List Byte)}
    {read : ReadResult β} {f : α → β} (h : SameRead s m k taken read f) {g : α → α'} {g' : β → β'}
    {f' : α' → β'} (hf : ∀ v, f' (g v) = g' (f v)) :
    SameRead s m k (taken.map fun r => (g r.1, r.2)) (read.bind fun v t => .ok (g' v) t) f' := by
  obtain ⟨hk, v, rfl, rfl⟩ | ⟨hk, rfl, rfl⟩ := h
  · exact .inl ⟨hk, g v, rfl, by simp [hf]⟩
  · exact .inr ⟨hk, rfl, rfl⟩

theorem sameRead_u8 (s : State) {m : Nat} (hm : 1 ≤ m) :
    SameRead s m 1 (takeU8 (s.upTo m)) (readU8 s) id := by
  obtain ⟨m, rfl⟩ := Nat.exists_eq_add_of_le' hm
  by_cases h : s.pos < s.n
  · exact .inl ⟨h, _, by rw [State.takeU8_upTo, if_pos h, Nat.add_sub_cancel], readU8_of_fits h⟩
  · exact .inr ⟨by omega, by rw [State.takeU8_upTo, if_neg h], readU8_of_short (by omega)⟩

theorem sameRead_s8 (s : State) {m : Nat} (hm : 1 ≤ m) :
    SameRead s m 1 (takeU8 (s.upTo m)) (readS8 s) sext16 := by
  obtain ⟨h, b, htaken, hread⟩ | ⟨h, htaken, hread⟩ := sameRead_u8 s hm
  · exact .inl ⟨h, b, htaken, by rw [readS8, hread]; rfl⟩
  · exact .inr ⟨h, htaken, by rw [readS8, hread]; rfl⟩

theorem sameRead_u16 (s : State) {m : Nat} (hm : 2 ≤ m) :
    SameRead s m 2 (takeU16 (s.upTo m)) (readU16LE s) id := by
  obtain ⟨m, rfl⟩ := Nat.exists_eq_add_of_le' hm
  by_cases h : s.pos + 2 ≤ s.n
  · exact .inl ⟨h, joinLE _ _, by rw [State.takeU16_upTo, if_pos h, Nat.add_sub_cancel], readU16LE_of_fits h⟩
  · exact .inr ⟨by omega, by rw [State.takeU16_upTo, if_neg h], readU16LE_of_short (by omega)⟩

/-- The immediate (R53). -/
theorem sameRead_imm (w : Width) (s : State) {m : Nat} (hm : 2 ≤ m) :
    SameRead s m w.immLen (takeImm w (s.upTo m)) (readImm w s) id := by
  cases w with
  | byte => exact (sameRead_u8 s (by omega)).map fun _ => rfl
  | word => exact sameRead_u16 s hm

/-- The addressing mode: the decoder's term spells the operand the resolver answers (R63, R72). -/
theorem sameRead_rmMode (mod : BitVec 2) (rm : Code3) (w : Width) {s : State} (hp : s.pos ≤ s.n) {m : Nat}
    (hm : 2 ≤ m) :
    SameRead s m (dlen mod rm) (takeRmMode mod rm (s.upTo m)) (resolve mod rm w s)
      (fun mode => RmMode.operand mode w) := by
  obtain rfl | rfl | rfl | rfl := mod_cases mod
  · exact .inl ⟨hp, .reg rm, rfl, rfl⟩
  · by_cases hrm : rm = 0b110#3
    · subst hrm
      exact (sameRead_u16 s hm).map fun _ => rfl
    · rw [takeRmMode, dlen, resolve_mod00_of_ne hrm]
      simp only [hrm, if_false, if_true]
      exact .inl ⟨hp, .base rm, rfl, rfl⟩
  · exact (sameRead_s8 s (by omega)).map fun _ => rfl
  · exact (sameRead_u16 s hm).map fun _ => rfl

/-- Settles O20: the resolver reads the field of `dlen` bytes that the decoder takes. -/
theorem resolveReadsExactlyDlen : Obligations.ResolveReadsExactlyDlen := by
  intro mod rm w s hp
  obtain ⟨hk, mode, -, hread⟩ | ⟨hk, -, hread⟩ := sameRead_rmMode mod rm w hp (le_refl 2)
  · exact ⟨fun _ => ⟨_, hread⟩, fun h => by omega⟩
  · exact ⟨fun h => by omega, fun _ => hread⟩

end Sys2Proof.Machine
end

section
/-! What a meaning does at the cursor (R12, R96, R114, R119): it answers its record where the instruction fits, and
takes `TRUNCATED` at the first field that does not. -/

namespace Sys2Proof.Machine

open Claims

/-- The reported offset is the one of the configured mode (R116). -/
theorem errOffsetOf_config (start p : Nat) :
    errOffsetOf Config.errOffsetMode start p = reportedOffset start p := by
  rw [reportedOffset]
  cases Config.errOffsetMode <;> rfl

/-- A truncation `k` bytes after the opcode byte, as the error entry that takes it (R119). -/
theorem truncatedAt_eq_fail (s : State) (op : Byte) (k : Nat) :
    truncatedAt s op (s.pos + k) = (s.advance k).fail .truncated s.pos op (s.pos + k) := by
  simp only [truncatedAt, ← errOffsetOf_config]
  rfl

/-- An instruction that fits is answered with its record (R12, R96). -/
theorem exec_of_fits {i : Instr} {s : State} (h : s.pos + i.length ≤ s.n) :
    exec i s = .next (answered s i.length (recordOf i)) := by
  rw [Instr.length_eq] at h ⊢
  rw [exec_eq_routine, State.routine_of_fits h]
  rfl

/-- Fields of which the first that does not fit begins after `start` bytes leave the cursor there (R118). -/
theorem State.consumeAll_of_cutAt {ks : List Nat} {avail start : Nat} (h : CutAt ks avail start) {s : State}
    (hs : s.pos + avail = s.n) : s.consumeAll ks = .short (s.advance start) := by
  induction h generalizing s with
  | @here k avail ks h =>
    have hk : s.consume k = Option.none := consume_of_short (by omega) (by omega)
    simp [consumeAll, hk]
  | @later k avail start ks hk h ih =>
    rw [consumeAll, consume_of_fits (by omega)]
    dsimp only
    rw [ih (s := s.advance k) (by simp; omega), advance_advance]

/-- An instruction of which a field is cut short takes `TRUNCATED` where that field begins (R114, R119). -/
theorem exec_of_cutAt {i : Instr} {s : State} {start : Nat} (hs : s.pos < s.n)
    (h : CutAt i.fields (s.n - (s.pos + 1)) start) :
    exec i s = .next (truncatedAt s i.opcode (s.pos + (1 + start))) := by
  have hshort : (s.advance 1).consumeAll i.fields = .short ((s.advance 1).advance start) :=
    State.consumeAll_of_cutAt h (by simp; omega)
  rw [exec_eq_routine, State.routine, if_pos hs, hshort, truncatedAt_eq_fail]
  simp

/-- Settles O23: the meaning of an instruction that fits, at its length `2 + dlen`. -/
theorem movRmRegCompletes : Obligations.MovRmRegCompletes := fun w reg rm _ h =>
  exec_of_fits (i := .movRmReg w reg rm) h

/-- Settles O24: the meaning of an instruction that fits, at its length `2 + dlen`. -/
theorem movRegRmCompletes : Obligations.MovRegRmCompletes := fun w reg rm _ h =>
  exec_of_fits (i := .movRegRm w reg rm) h

/-- Settles O25: a byte and a word immediate. -/
theorem movRegImmCompletes : Obligations.MovRegImmCompletes := fun w r v _ h =>
  match w with
  | .byte => exec_of_fits (i := .movRegImm .byte r v) h
  | .word => exec_of_fits (i := .movRegImm .word r v) h

/-- Settles O26: a byte and a word immediate. -/
theorem movRmImmCompletes : Obligations.MovRmImmCompletes := fun w ign rm v _ h =>
  match w with
  | .byte => exec_of_fits (i := .movRmImm .byte ign rm v) h
  | .word => exec_of_fits (i := .movRmImm .word ign rm v) h

/-- Settles O27: the meaning of an instruction that fits, at its length 3. -/
theorem movAccMemCompletes : Obligations.MovAccMemCompletes := fun w a _ h =>
  exec_of_fits (i := .movAccMem w a) h

/-- Settles O28: the meaning of an instruction that fits, at its length 3. -/
theorem movMemAccCompletes : Obligations.MovMemAccCompletes := fun w a _ h =>
  exec_of_fits (i := .movMemAcc w a) h

/-- Settles O33: both sides name the accumulator and the address. -/
theorem accumulatorFormMatchesDirectForm : Obligations.AccumulatorFormMatchesDirectForm := fun _ _ => ⟨rfl, rfl⟩

/-- Settles O30: the routine stops at the first field that runs past the buffer. -/
theorem execTruncatesAtFirstMissingField : Obligations.ExecTruncatesAtFirstMissingField := by
  intro i s hpos hlong
  rw [Instr.length_eq] at hlong
  obtain ⟨k, hk, hexec, hfits, hcut⟩ := State.routine_of_short (op := i.opcode) (r := recordOf i) hpos hlong
  refine ⟨k, hk, by omega, by omega, ?_⟩
  rw [exec_eq_routine, hexec, ← truncatedAt_eq_fail, Nat.add_assoc]

/-- Settles O31: a meaning answers the record, or takes `TRUNCATED` at a field that begins in the buffer. -/
theorem execFrame : Obligations.ExecFrame := by
  intro i s t h
  obtain ⟨hbuf, hn⟩ := exec_keeps_buffer h
  refine ⟨hbuf, hn, fun a => by rw [State.byteAt, State.byteAt, hbuf, hn], ?_⟩
  rw [exec_eq_routine] at h
  rw [Instr.length_eq]
  obtain ⟨hfits, he⟩ | ⟨hpos, hlong, k, hk, he, hle, -⟩ | ⟨-, he⟩ :=
    s.routine_cases i.opcode i.fields (recordOf i)
  all_goals cases he.symm.trans h
  · exact ⟨by simp, by simpa using hfits, fun _ => ⟨rfl, rfl, rfl, rfl⟩⟩
  · exact ⟨by simp, by simpa using hle, fun hfits => by omega⟩

end Sys2Proof.Machine
end

section
/-! The step is the spec's pseudocode (R86): class by class the decoder's routine and the routine that reads
through the cursor come to the same instruction, or stop at the same field. -/

namespace Sys2Proof.Machine

open Claims

/-- The decoder's routine and the cursor's, for the instruction whose opcode byte stands at the cursor of `s`:
both find the same instruction, which fits, or both stop at the same field. -/
def SameRoutine (s : State) (op : Byte) (d : Decoded) (r : ReadResult Record) : Prop :=
  (∃ i rest, d = .instr i rest ∧ s.pos + i.length ≤ s.n ∧ r = .ok (recordOf i) (s.advance i.length)) ∨
  ∃ used, d = .truncated op used ∧ r = .exhausted (s.advance used)

/-- A mode the decoder takes has as many bytes as its fields ask for (R51). -/
theorem takeRmMode_len {mod : BitVec 2} {rm : Code3} {bs rest : List Byte} {m : RmMode}
    (h : takeRmMode mod rm bs = some (m, rest)) : m.len = dlen mod rm := by
  obtain ⟨-, hmod, hrm, -⟩ := takeRmMode_some h
  rw [RmMode.len, hmod, hrm]

theorem sameRoutine_immReg (s : State) (op : Byte) :
    SameRoutine s op (decodeImmReg op ((s.advance 1).upTo 5)) (cursorImmReg op (s.advance 1)) := by
  rw [decodeImmReg, cursorImmReg]
  obtain ⟨hk, v, htaken, hread⟩ | ⟨hk, htaken, hread⟩ :=
    sameRead_imm (immRegWidth op) (s.advance 1) (m := 5) (by omega)
  · rw [htaken, hread]
    refine .inl ⟨_, _, rfl, ?_, by rw [State.advance_advance]; rfl⟩
    simpa [Instr.length, Nat.add_assoc] using hk
  · rw [htaken, hread]
    exact .inr ⟨1, rfl, rfl⟩

theorem sameRoutine_accMem (s : State) (op : Byte) :
    SameRoutine s op (decodeAccMem op ((s.advance 1).upTo 5)) (cursorAccMem op (s.advance 1)) := by
  rw [decodeAccMem, cursorAccMem]
  obtain ⟨hk, a, htaken, hread⟩ | ⟨hk, htaken, hread⟩ := sameRead_u16 (s.advance 1) (m := 5) (by omega)
  · rw [htaken, hread]
    cases hd : opDir op
    all_goals exact .inl ⟨_, _, rfl, hk, rfl⟩
  · rw [htaken, hread]
    exact .inr ⟨1, rfl, rfl⟩

theorem sameRoutine_rmReg (s : State) (op : Byte) :
    SameRoutine s op (decodeRmReg op ((s.advance 1).upTo 5)) (cursorRmReg op (s.advance 1)) := by
  rw [decodeRmReg, cursorRmReg]
  obtain ⟨hm, m, htaken, hread⟩ | ⟨hm, htaken, hread⟩ := sameRead_u8 (s.advance 1) (m := 5) (by omega)
  · rw [htaken, hread]
    dsimp only [ReadResult.bind_ok, id]
    obtain ⟨hk, rm, htaken, hread⟩ | ⟨hk, htaken, hread⟩ :=
      sameRead_rmMode (modField m) (rmField m) (opWidth op) (s := (s.advance 1).advance 1) hm (m := 4) (by omega)
    · have hlen := takeRmMode_len htaken
      rw [htaken, hread]
      cases hd : opDir op
      all_goals
        refine .inl ⟨_, _, rfl, ?_, ?_⟩
        · simpa [Instr.length, hlen, Nat.add_assoc] using hk
        · simp only [Instr.length, hlen, State.advance_advance, ReadResult.bind_ok]
          rfl
    · rw [htaken, hread]
      exact .inr ⟨2, rfl, rfl⟩
  · rw [htaken, hread]
    exact .inr ⟨1, rfl, rfl⟩

theorem sameRoutine_immMem (s : State) (op : Byte) :
    SameRoutine s op (decodeImmMem op ((s.advance 1).upTo 5)) (cursorImmMem op (s.advance 1)) := by
  rw [decodeImmMem, cursorImmMem]
  obtain ⟨hm, m, htaken, hread⟩ | ⟨hm, htaken, hread⟩ := sameRead_u8 (s.advance 1) (m := 5) (by omega)
  · rw [htaken, hread]
    dsimp only [ReadResult.bind_ok, id]
    obtain ⟨hk, rm, htaken, hread⟩ | ⟨hk, htaken, hread⟩ :=
      sameRead_rmMode (modField m) (rmField m) (opWidth op) (s := (s.advance 1).advance 1) hm (m := 4) (by omega)
    · have hlen := takeRmMode_len htaken
      rw [htaken, hread]
      dsimp only [ReadResult.bind_ok]
      have hle := rm.len_le
      obtain ⟨hv, v, htaken, hread⟩ | ⟨hv, htaken, hread⟩ :=
        sameRead_imm (opWidth op) (((s.advance 1).advance 1).advance (dlen (modField m) (rmField m)))
          (m := 4 - dlen (modField m) (rmField m)) (by omega)
      · rw [htaken, hread]
        refine .inl ⟨_, _, rfl, ?_, ?_⟩
        · simpa [Instr.length, hlen, Nat.add_assoc] using hv
        · simp only [Instr.length, hlen, State.advance_advance, ReadResult.bind_ok]
          rfl
      · rw [htaken, hread]
        exact .inr ⟨2 + dlen (modField m) (rmField m), rfl, by simp⟩
    · rw [htaken, hread]
      exact .inr ⟨2, rfl, rfl⟩
  · rw [htaken, hread]
    exact .inr ⟨1, rfl, rfl⟩

end Sys2Proof.Machine
end

section
/-! The step of a live pass (R84, R86, R113 to R119): by what the decoder answers for the window, and by what the
cursor's routine answers. -/

namespace Sys2Proof.Machine

open Claims

/-! ### Requests that decode nothing -/

theorem step_of_error {s : State} (h : s.status = .error) : step s = .next (s.respond s.errorResponse) := by
  simp [step, request, h]

theorem step_of_ended {s : State} (h : s.status = .ended) : step s = .next (s.respond .ended) := by
  simp [step, request, h]

theorem step_of_pos_eq {s : State} (h : s.status = .ready) (hend : s.pos = s.n) :
    step s = .next s.finish := by
  simp [step, request, h, hend]

theorem decodeOne_of_error {s : State} (h : s.status = .error) : decodeOne s = (s, s.errorResponse) := by
  simp [decodeOne, h]

theorem decodeOne_of_ended {s : State} (h : s.status = .ended) : decodeOne s = (s, .ended) := by
  simp [decodeOne, h]

theorem decodeOne_of_pos_eq {s : State} (h : s.status = .ready) (hend : s.pos = s.n) :
    decodeOne s = ({ s with status := .ended }, .ended) := by
  simp [decodeOne, h, hend]

/-- Settles O43: the request's outcomes by `STATUS`, and at the end of the buffer. -/
theorem requestsThatDecodeNothing : Obligations.RequestsThatDecodeNothing := fun _ =>
  ⟨step_of_error, step_of_ended, step_of_pos_eq⟩

/-! ### The step by the decoder's answer -/

section
variable {s : State} (hst : s.status = .ready) (hpos : s.pos < s.n)
include hst hpos

theorem step_of_instr {i : Instr} {rest : List Byte} (hd : decode s.window = .instr i rest) :
    step s = exec i s := by
  simp [step, request, hst, hpos.ne, hd]

theorem step_of_unsupported {op : Byte} (hd : decode s.window = .unsupported op) :
    step s = .next ((s.advance 1).fail .unsupportedOpcode s.pos op s.pos) := by
  simp [step, request, hst, hpos.ne, hd]

theorem step_of_truncated {op : Byte} {used : Nat} (hd : decode s.window = .truncated op used) :
    step s = .next (truncatedAt s op (s.pos + used)) := by
  simp [step, request, hst, hpos.ne, hd, truncatedAt_eq_fail]

/-! ### The pseudocode by the cursor's answer -/

theorem decodeOne_of_ok {r : Record} {t : State}
    (hc : cursorRoutine (s.buf.read s.pos) (s.advance 1) = some (.ok r t)) : decodeOne s = (t, .instr r) := by
  simp [decodeOne, hst, hpos.ne, readU8_of_fits hpos, hc]

theorem decodeOne_of_exhausted {t : State}
    (hc : cursorRoutine (s.buf.read s.pos) (s.advance 1) = some (.exhausted t)) :
    decodeOne s = (t.latchError .truncated s.pos (s.buf.read s.pos) t.pos,
      (t.latchError .truncated s.pos (s.buf.read s.pos) t.pos).errorResponse) := by
  simp [decodeOne, hst, hpos.ne, readU8_of_fits hpos, hc]

theorem decodeOne_of_none (hc : cursorRoutine (s.buf.read s.pos) (s.advance 1) = Option.none) :
    decodeOne s = ((s.advance 1).latchError .unsupportedOpcode s.pos (s.buf.read s.pos) s.pos,
      ((s.advance 1).latchError .unsupportedOpcode s.pos (s.buf.read s.pos) s.pos).errorResponse) := by
  simp [decodeOne, hst, hpos.ne, readU8_of_fits hpos, hc]

end

/-! ### Both agree -/

theorem State.window_of_lt {s : State} (h : s.pos < s.n) :
    s.window = s.buf.read s.pos :: (s.advance 1).upTo 5 := by
  rw [window_eq_upTo, maxLength, upTo_succ, if_pos h]

/-- The verdict on the byte at the cursor selects the same routine of the decoder and of the pseudocode
(R84). -/
theorem cursorRoutine_cases {s : State} (h : s.pos < s.n) :
    (cursorRoutine (s.buf.read s.pos) (s.advance 1) = Option.none ∧
      decode s.window = .unsupported (s.buf.read s.pos)) ∨
    ∃ r, cursorRoutine (s.buf.read s.pos) (s.advance 1) = some r ∧
      SameRoutine s (s.buf.read s.pos) (decode s.window) r := by
  rw [State.window_of_lt h, cursorRoutine, decode]
  cases hop : classify (s.buf.read s.pos) with
  | rmReg => exact .inr ⟨_, rfl, sameRoutine_rmReg s _⟩
  | immReg => exact .inr ⟨_, rfl, sameRoutine_immReg s _⟩
  | immMem => exact .inr ⟨_, rfl, sameRoutine_immMem s _⟩
  | accMem => exact .inr ⟨_, rfl, sameRoutine_accMem s _⟩
  | none => exact .inl ⟨rfl, rfl⟩

/-- In a live pass with a byte left the step is the pseudocode, both by the routine's answer. -/
theorem step_eq_decodeOne_of_lt {s : State} (hst : s.status = .ready) (hpos : s.pos < s.n) :
    step s = .next ((decodeOne s).1.respond (decodeOne s).2) := by
  obtain ⟨hc, hd⟩ | ⟨r, hc, ⟨i, rest, hd, hfits, rfl⟩ | ⟨used, hd, rfl⟩⟩ := cursorRoutine_cases hpos
  · rw [decodeOne_of_none hst hpos hc, step_of_unsupported hst hpos hd]
    rfl
  · rw [decodeOne_of_ok hst hpos hc, step_of_instr hst hpos hd, exec_of_fits hfits]
    rfl
  · rw [decodeOne_of_exhausted hst hpos hc, step_of_truncated hst hpos hd, truncatedAt_eq_fail]
    rfl

/-- Settles O36: outside a live pass with a byte left both answer at once; inside it the routines agree. -/
theorem stepIsDecodeOne : Obligations.StepIsDecodeOne := by
  intro s hp
  cases hst : s.status with
  | error => rw [step_of_error hst, decodeOne_of_error hst]; rfl
  | ended => rw [step_of_ended hst, decodeOne_of_ended hst]; rfl
  | ready =>
    by_cases hend : s.pos = s.n
    · rw [step_of_pos_eq hst hend, decodeOne_of_pos_eq hst hend]; rfl
    · exact step_eq_decodeOne_of_lt hst (Nat.lt_of_le_of_ne hp hend)

/-- Settles O34: the request runs what the decoder answers for the window. -/
theorem stepRunsDecodedInstruction : Obligations.StepRunsDecodedInstruction :=
  fun _ _ _ hst hpos hd => step_of_instr hst hpos hd

/-! ### An encoding at the cursor -/

/-- Where an encoding stands at the cursor as far as the buffer goes, that much of it is in the window. -/
theorem State.window_take_of_reads {s : State} {i : Instr} (hi : i.wf = true)
    (h : ∀ k, k < i.length → s.pos + k < s.n → s.buf.read (s.pos + k) = (encode i).getD k 0x00#8) :
    s.window.take i.length = (encode i).take (s.n - s.pos) := by
  have hlen := encode_length i hi
  have hmax : i.length ≤ 6 := (Instr.length_bounds hi).2
  refine List.ext_getElem ?_ fun k hk hk' => ?_
  · simp only [List.length_take, window_length, maxLength]
    omega
  · simp only [List.length_take] at hk hk'
    rw [List.getElem_take, List.getElem_take, window_getElem, h k (by omega) (by omega),
      List.getD_eq_getElem _ _ (by omega)]

/-- Settles O35: an instruction that fits decodes from the window; one that is cut short is truncated at the
field where its meaning stops. -/
theorem stepRunsEncodedInstruction : Obligations.StepRunsEncodedInstruction := by
  intro i s hi hst hpos hreads
  have hlen := encode_length i hi
  have htake := State.window_take_of_reads hi hreads
  by_cases hfits : s.pos + i.length ≤ s.n
  · have hw : s.window = encode i ++ s.window.drop i.length := by
      rw [List.take_of_length_le (l := encode i) (by omega)] at htake
      rw [← htake, List.take_append_drop]
    exact step_of_instr hst hpos (hw ▸ decode_encode_append i _ hi)
  · have hwlen : s.window.length ≤ i.length := by
      rw [State.window_length]
      omega
    obtain ⟨k, hk⟩ : ∃ k, s.n - s.pos = k + 1 := Nat.exists_eq_add_of_le' (by omega)
    obtain ⟨start, hd, hcut⟩ := decode_take_encode hi (k := k) (by omega)
    rw [List.take_of_length_le hwlen, hk] at htake
    have hcut : CutAt i.fields (s.n - (s.pos + 1)) start := by rwa [show s.n - (s.pos + 1) = k by omega]
    rw [step_of_truncated hst hpos (htake ▸ hd), exec_of_cutAt hpos hcut]

end Sys2Proof.Machine
end

section
/-! What every step does and keeps (R11, R16, R26, R55, R96, R119): one inversion of the step, then its frame, the
length of a record, the error entry and the invariant. -/

namespace Sys2Proof.Machine

open Claims

/-- While bytes are left the window's first is the byte at the cursor. -/
theorem State.window_head? {s : State} (h : s.pos < s.n) : s.window.head? = some (s.buf.read s.pos) := by
  rw [window_of_lt h]
  rfl

/-- An instruction decoded from the window fits in the buffer. -/
theorem State.fits_of_window {s : State} {i : Instr} {rest : List Byte} (hi : i.wf = true)
    (hpos : s.pos < s.n) (hw : s.window = encode i ++ rest) : s.pos + i.length ≤ s.n := by
  have hlen := congrArg List.length hw
  rw [window_length, List.length_append, encode_length i hi] at hlen
  omega

/-- Everything a step to a next state can do (R86). -/
inductive StepsTo (s : State) : State → Prop where
  /-- In `ERROR` the latched error is answered again (R122). -/
  | errorAgain (hst : s.status = .error) : StepsTo s (s.respond s.errorResponse)
  /-- In `END` the response is `End` again (R132). -/
  | endAgain (hst : s.status = .ended) : StepsTo s (s.respond .ended)
  /-- A live pass with no byte left ends (R131). -/
  | finish (hst : s.status = .ready) (hend : s.pos = s.n) : StepsTo s s.finish
  /-- The instruction at the cursor is answered with its record (R12, R96). -/
  | record {i : Instr} {rest : List Byte} (hst : s.status = .ready) (hi : i.wf = true)
      (hw : s.window = encode i ++ rest) (hfits : s.pos + i.length ≤ s.n) :
      StepsTo s (answered s i.length (recordOf i))
  /-- No pattern matches the opcode byte (R115). -/
  | unsupported (hst : s.status = .ready) (hpos : s.pos < s.n) (hop : classify (s.buf.read s.pos) = .none) :
      StepsTo s ((s.advance 1).fail .unsupportedOpcode s.pos (s.buf.read s.pos) s.pos)
  /-- A field that begins `used` bytes into the instruction is cut short (R114). -/
  | truncated {used : Nat} (hst : s.status = .ready) (hpos : s.pos < s.n)
      (hop : classify (s.buf.read s.pos) ≠ .none) (hlo : 1 ≤ used) (hle : s.pos + used ≤ s.n) :
      StepsTo s ((s.advance used).fail .truncated s.pos (s.buf.read s.pos) (s.pos + used))

theorem stepsTo_of_step {s t : State} (h : step s = .next t) : StepsTo s t := by
  obtain ⟨hst, he⟩ | ⟨hst, he⟩ | ⟨hst, hend, he⟩ | ⟨hst, hpos, i, rest, hd, he⟩ |
    ⟨hst, hpos, op, hd, he⟩ | ⟨hst, hpos, op, used, hd, he⟩ | ⟨-, -, he⟩ := step_cases s
  · cases he.symm.trans h
    exact .errorAgain hst
  · cases he.symm.trans h
    exact .endAgain hst
  · cases he.symm.trans h
    exact .finish hst hend
  · obtain ⟨hi, hw⟩ := decode_instr hd
    have hfits := State.fits_of_window hi hpos hw
    cases (exec_of_fits hfits).symm.trans (he.symm.trans h)
    exact .record hst hi hw hfits
  · cases he.symm.trans h
    obtain ⟨hop, hhead⟩ := decode_unsupported hd
    cases (State.window_head? hpos).symm.trans hhead
    exact .unsupported hst hpos hop
  · cases he.symm.trans h
    obtain ⟨hhead, hlo, hhi⟩ := decode_truncated_used hd
    obtain ⟨hop, -⟩ := decode_truncated hd
    cases (State.window_head? hpos).symm.trans hhead
    rw [State.window_length] at hhi
    exact .truncated hst hpos hop hlo (by omega)
  · cases he.symm.trans h

/-! ### Stops and frames -/

/-- A meaning stops only where no byte is left. -/
theorem exec_next_of_lt (i : Instr) {s : State} (hpos : s.pos < s.n) :
    ∃ t, exec i s = .next t ∧ t.resp.isSome = true := by
  rw [exec_eq_routine]
  obtain ⟨-, he⟩ | ⟨-, -, k, -, he, -⟩ | ⟨hle, -⟩ := s.routine_cases i.opcode i.fields (recordOf i)
  · exact ⟨_, he, rfl⟩
  · exact ⟨_, he, rfl⟩
  · omega

/-- Settles O37: of the outcomes of a step only the one past the buffer is no next state. -/
theorem stepStopsOnlyPastTheBuffer : Obligations.StepStopsOnlyPastTheBuffer := by
  intro s
  obtain ⟨hst, he⟩ | ⟨hst, he⟩ | ⟨hst, hend, he⟩ | ⟨hst, hpos, i, rest, -, he⟩ |
    ⟨hst, hpos, op, -, he⟩ | ⟨hst, hpos, op, used, -, he⟩ | ⟨hst, hpos, he⟩ := step_cases s
  · exact ⟨fun _ => ⟨_, he, rfl⟩, fun h => by simp [hst] at h⟩
  · exact ⟨fun _ => ⟨_, he, rfl⟩, fun h => by simp [hst] at h⟩
  · exact ⟨fun _ => ⟨_, he, rfl⟩, fun _ h => by omega⟩
  · exact ⟨fun _ => he ▸ exec_next_of_lt i hpos, fun _ h => by omega⟩
  · exact ⟨fun _ => ⟨_, he, rfl⟩, fun _ h => by omega⟩
  · exact ⟨fun _ => ⟨_, he, rfl⟩, fun _ h => by omega⟩
  · exact ⟨fun h => by omega, fun _ _ => he⟩

/-- 230 of the 256 opcode bytes match no pattern: all but the 26 that do (R57). -/
theorem unmatched_count :
    ((List.range 256).filter fun k => classify (BitVec.ofNat 8 k) == .none).length = 230 := by
  have hall := List.length_eq_length_filter_add (l := List.range 256)
    fun k => classify (BitVec.ofNat 8 k) != .none
  have hmatched := opcodeMapOfAllBytes.2
  simp only [bne, Bool.not_not, List.length_range] at hall hmatched
  omega

/-- Settles O38: the byte at the cursor is the first of the window, and both values of the mode report it. -/
theorem unsupportedOpcodeEntry : Obligations.UnsupportedOpcodeEntry := by
  refine ⟨fun s hst hpos hop => ?_, unmatched_count⟩
  have hd : decode s.window = .unsupported (s.buf.read s.pos) := by
    rw [State.window_of_lt hpos, decode, hop]
  rw [step_of_unsupported hst hpos hd]
  simp only [State.fail, State.latchError, errOffsetOf_config, reportedOffset, ite_self]
  rfl

/-- Settles O46: case by case, what the step's next state differs in. -/
theorem stepWritesOnlyCursorAndLatches : Obligations.StepWritesOnlyCursorAndLatches := by
  intro s t h
  obtain ⟨hbuf, hn⟩ := step_keeps_buffer h
  refine ⟨hbuf, hn, fun a => by rw [State.byteAt, State.byteAt, hbuf, hn], ?_⟩
  cases stepsTo_of_step h with
  | errorAgain hst => simp
  | endAgain hst => simp
  | finish hst hend => simp [hst]
  | record hst hi hw hfits => simp [hst, answered, hfits]
  | unsupported hst hpos hop => simp [hst, Nat.succ_le_of_lt hpos]
  | truncated hst hpos hop hlo hle => simp [hst, hle]

/-! ### Records and errors -/

/-- Settles O44: of the cases of a live pass two answer an error. -/
theorem errorEntryLatches : Obligations.ErrorEntryLatches := by
  intro s t kind offset byte hready h hresp
  cases stepsTo_of_step h with
  | errorAgain hst => simp [hst] at hready
  | endAgain hst => simp [hst] at hready
  | finish hst hend => cases hresp
  | record hst hi hw hfits => cases hresp
  | unsupported hst hpos hop =>
    cases hresp
    refine ⟨rfl, rfl, rfl, rfl, rfl, hpos, .inl ⟨rfl, hop, rfl, ?_⟩⟩
    rw [State.latchError_errOffset, errOffsetOf_config, reportedOffset, ite_self]
  | truncated hst hpos hop hlo hle =>
    cases hresp
    exact ⟨rfl, rfl, rfl, rfl, rfl, hpos,
      .inr ⟨rfl, hop, Nat.lt_add_of_pos_right hlo, hle, errOffsetOf_config _ _⟩⟩

/-- An instruction that fits has the length its opcode byte and its ModRM byte ask for (R54, R55). -/
theorem length_of_window {s : State} {i : Instr} {rest : List Byte} (hi : i.wf = true)
    (hfits : s.pos + i.length ≤ s.n) (hw : s.window = encode i ++ rest) :
    i.length = 1 + (operandFields (s.buf.read s.pos) [s.buf.read (s.pos + 1)]).sum := by
  have hmin := (Instr.length_bounds hi).1
  rw [State.window_of_lt (by omega), State.upTo_succ, if_pos (by simp; omega), encode_append] at hw
  obtain ⟨hop, htl⟩ := List.cons.inj hw
  rw [Instr.length_eq, ← operandFields_operandBytes i rest, ← htl, hop]
  rfl

/-- An immediate is a byte longer where its width bit is set (R53). -/
theorem immLen_ofBit (b : Bool) : (Width.ofBit b).immLen = 1 + b.toNat := by
  cases b <;> rfl

/-- Settles O45: the record of an instruction that fits, its length read off its first two bytes. -/
theorem recordAdvancesByLength : Obligations.RecordAdvancesByLength := by
  intro s t r hready h hresp
  cases stepsTo_of_step h with
  | errorAgain hst => cases hresp
  | endAgain hst => cases hresp
  | finish hst hend => cases hresp
  | unsupported hst hpos hop => cases hresp
  | truncated hst hpos hop hlo hle => cases hresp
  | @record i rest hst hi hw hfits =>
    obtain ⟨hmin, hmax⟩ := Instr.length_bounds hi
    refine ⟨hfits, Nat.add_le_add_left hmin _, Nat.add_le_add_left hmax _, hst, rfl, rfl, rfl, ?_⟩
    rintro op m rfl rfl
    have hlen := length_of_window hi hfits hw
    rw [operandFields] at hlen
    cases hop : classify (s.buf.read s.pos)
    case none =>
      simp only [hop, List.sum_nil] at hlen
      omega
    all_goals
      simp only [hop, List.sum_cons, List.sum_nil, opWidth, immRegWidth, immLen_ofBit, List.headD_cons, modField,
        rmField] at hlen
      simp only [answered]
      omega

end Sys2Proof.Machine
end

section
/-! The invariants of the state (R14, R16, R20 to R22, R99): reset gives them, and each of the five things a step can
do keeps them. -/

namespace Sys2Proof.Machine

open Claims

/-! ### Answered records are legal -/

/-- The operand of a well-formed mode is a register or a legal memory operand (R20, R21). -/
theorem RmMode.operand_legal {m : RmMode} (hm : m.wf = true) (w : Width) :
    (RmMode.operand m w).legal ∧ ∀ v w', RmMode.operand m w ≠ .imm v w' := by
  refine ⟨?_, fun v w' => by cases m <;> nofun⟩
  cases m with
  | reg rm => trivial
  | base rm => exact .inl ⟨rfl, rfl, by simpa [RmMode.wf] using hm⟩
  | direct a => trivial
  | disp8 rm b =>
    refine .inr (.inl ⟨rfl, neg_128_le_disp8Value b, ?_⟩)
    rw [disp8Value_eq]
    exact Int.le_of_lt_add_one BitVec.toInt_lt
  | disp16 rm v =>
    have hv : v.toNat < 65536 := v.isLt
    exact .inr (.inr ⟨rfl, by simp [disp16Value], by simp only [disp16Value]; omega⟩)

/-- An immediate that fits its width is legal (R20). -/
theorem immediate_legal {w : Width} {v : Word} (h : immFits w v = true) : (Operand.imm v w).legal := by
  rintro rfl
  simpa [immFits] using h

/-- The record of a well-formed instruction is legal (R20 to R22, R99). -/
theorem recordOf_legal {i : Instr} (hi : i.wf = true) : (recordOf i).legal := by
  cases i with
  | movRmReg w reg rm =>
    obtain ⟨hlegal, hdst⟩ := RmMode.operand_legal hi w
    exact ⟨hlegal, trivial, hdst, rfl⟩
  | movRegRm w reg rm =>
    obtain ⟨hlegal, -⟩ := RmMode.operand_legal hi w
    refine ⟨trivial, hlegal, nofun, ?_⟩
    cases rm <;> rfl
  | movRegImm w r v => exact ⟨trivial, immediate_legal hi, nofun, .inl ⟨rfl, _, rfl⟩⟩
  | movRmImm w ign rm v =>
    obtain ⟨hrm, hv⟩ := Bool.and_eq_true_iff.1 hi
    obtain ⟨hlegal, hdst⟩ := RmMode.operand_legal hrm w
    exact ⟨hlegal, immediate_legal hv, hdst, .inr rfl⟩
  | movAccMem w a => exact ⟨trivial, trivial, nofun, rfl⟩
  | movMemAcc w a => exact ⟨trivial, trivial, nofun, rfl⟩

/-! ### Each thing a step can do keeps the invariant -/

theorem State.Inv.respond_error {s : State} (h : s.Inv) (hst : s.status = .error) :
    (s.respond s.errorResponse).Inv :=
  { h with resp := ⟨hst, rfl, rfl, rfl⟩ }

theorem State.Inv.respond_ended {s : State} (h : s.Inv) (hst : s.status = .ended) :
    (s.respond .ended).Inv :=
  { h with resp := hst }

theorem State.Inv.finish {s : State} (h : s.Inv) (hst : s.status = .ready) (hend : s.pos = s.n) :
    s.finish.Inv where
  buf := h.buf
  posInBuffer := h.posInBuffer
  ended := fun _ => hend
  errKind := by simpa [hst] using h.errKind
  errOffset := nofun
  errZero := fun _ => h.errZero (by simp [hst])
  resp := rfl

theorem State.Inv.advance {s : State} (h : s.Inv) (hst : s.status = .ready) {k : Nat}
    (hfits : s.pos + k ≤ s.n) : (s.advance k).Inv where
  buf := h.buf
  posInBuffer := hfits
  ended := fun he => by simp [hst] at he
  errKind := h.errKind
  errOffset := fun he => by simp [hst] at he
  errZero := h.errZero
  resp := h.resp

theorem State.Inv.answered {s : State} (h : s.Inv) (hst : s.status = .ready) {len : Nat}
    (hfits : s.pos + len ≤ s.n) {r : Record} (hr : r.legal) : (answered s len r).Inv :=
  { h.advance hst hfits with resp := ⟨hst, hr⟩ }

/-- Error entry: the offset is the opcode byte's or where the failing read began, both at or before the cursor
(R16, R119). -/
theorem State.Inv.fail {s : State} (h : s.Inv) {kind : ErrKind} (hkind : kind ≠ .none) {start p : Nat}
    (hstart : start ≤ s.pos) (hp : p ≤ s.pos) (op : Byte) : (s.fail kind start op p).Inv where
  buf := h.buf
  posInBuffer := h.posInBuffer
  ended := nofun
  errKind := by simp [hkind]
  errOffset := fun _ => by
    simp only [fail_errOffset, errOffsetOf_config, reportedOffset, fail_pos]
    split
    · exact hstart
    · exact hp
  errZero := fun he => absurd rfl he
  resp := ⟨rfl, rfl, rfl, rfl⟩

/-- Settles O47: case by case over what a step can do. -/
theorem stepKeepsInvariant : Obligations.StepKeepsInvariant := by
  intro s t hs h
  cases stepsTo_of_step h with
  | errorAgain hst => exact hs.respond_error hst
  | endAgain hst => exact hs.respond_ended hst
  | finish hst hend => exact hs.finish hst hend
  | record hst hi hw hfits => exact hs.answered hst hfits (recordOf_legal hi)
  | unsupported hst hpos hop =>
    exact (hs.advance hst (k := 1) hpos).fail (by decide) (Nat.le_add_right _ _) (Nat.le_add_right _ _) _
  | truncated hst hpos hop hlo hle =>
    exact (hs.advance hst hle).fail (by decide) (Nat.le_add_right _ _) (le_refl _) _

/-- A block just reset is legal when its buffer is (R128). -/
theorem State.resetBlock_inv {s : State} (h : s.bufLegal) : s.resetBlock.Inv where
  buf := h
  posInBuffer := Nat.zero_le _
  ended := nofun
  errKind := by simp
  errOffset := nofun
  errZero := fun _ => ⟨rfl, rfl⟩
  resp := rfl

/-- Settles O48: the reset state is its own reset, with the empty buffer. -/
theorem resetStateIsLegal : Obligations.ResetStateIsLegal :=
  ⟨State.resetBlock_inv (s := State.reset) ⟨rfl, rfl⟩, rfl, rfl, rfl, rfl, rfl, step_of_pos_eq rfl rfl⟩

/-- Settles O49: the state by definition, its invariant from the legal buffer. -/
theorem resetRestoresEveryBlock : Obligations.ResetRestoresEveryBlock := by
  refine fun s => ⟨rfl, fun hbuf t ht => ?_⟩
  cases ht
  exact State.resetBlock_inv hbuf

end Sys2Proof.Machine
end

section
/-! The four classes from their bytes (R89 to R95): the step is what the class's routine reads through the cursor,
so each statement is the reads' equations. -/

namespace Sys2Proof.Machine

open Claims

/-! ### The class of an opcode byte by its mask (R79 to R82) -/

theorem classify_rmReg_of_mask : ∀ op : Byte, op &&& 0xFC#8 = 0x88#8 → classify op = .rmReg := by decide

theorem classify_immReg_of_mask : ∀ op : Byte, op &&& 0xF0#8 = 0xB0#8 → classify op = .immReg := by decide

theorem classify_immMem_of_mask : ∀ op : Byte, op &&& 0xFE#8 = 0xC6#8 → classify op = .immMem := by decide

theorem classify_accMem_of_mask : ∀ op : Byte, op &&& 0xFC#8 = 0xA0#8 → classify op = .accMem := by decide

/-! ### The step by the cursor's answer -/

section
variable {s : State} (hst : s.status = .ready) (hpos : s.pos < s.n)
include hst hpos

theorem step_of_cursor_ok {r : Record} {t : State}
    (hc : cursorRoutine (s.buf.read s.pos) (s.advance 1) = some (.ok r t)) :
    step s = .next (t.respond (.instr r)) := by
  rw [step_eq_decodeOne_of_lt hst hpos, decodeOne_of_ok hst hpos hc]

theorem step_of_cursor_exhausted {k : Nat}
    (hc : cursorRoutine (s.buf.read s.pos) (s.advance 1) = some (.exhausted (s.advance k))) :
    step s = .next (truncatedAt s (s.buf.read s.pos) (s.pos + k)) := by
  rw [step_eq_decodeOne_of_lt hst hpos, decodeOne_of_exhausted hst hpos hc, truncatedAt_eq_fail]
  rfl

end

/-! ### What the resolver leaves -/

/-- A resolver that succeeds has advanced the cursor by `dlen` and changed nothing else (R71). -/
theorem resolve_ok {mod : BitVec 2} {rm : Code3} {w : Width} {s t : State} {o : Operand} (hp : s.pos ≤ s.n)
    (h : resolve mod rm w s = .ok o t) : t = s.advance (dlen mod rm) := by
  obtain ⟨-, mode, -, hread⟩ | ⟨-, -, hread⟩ := sameRead_rmMode mod rm w hp (le_refl 2)
  · cases hread.symm.trans h
    rfl
  · cases hread.symm.trans h

/-- A resolver that fails has not moved the cursor (R71). -/
theorem resolve_exhausted {mod : BitVec 2} {rm : Code3} {w : Width} {s t : State} (hp : s.pos ≤ s.n)
    (h : resolve mod rm w s = .exhausted t) : t = s := by
  obtain ⟨-, mode, -, hread⟩ | ⟨-, -, hread⟩ := sameRead_rmMode mod rm w hp (le_refl 2)
  · cases hread.symm.trans h
  · cases hread.symm.trans h
    rfl

/-! ### Class `ACC_MEM` -/

theorem mkRecord_orderAccMem (d : Bool) (acc mem : Operand) (hint : SizeHint) :
    mkRecord (orderAccMem d acc mem) hint = if d then ⟨.mov, mem, acc, hint⟩ else ⟨.mov, acc, mem, hint⟩ := by
  cases d <;> rfl

/-- Settles O42: the routine's one read is the address. -/
theorem accMemBytesDecode : Obligations.AccMemBytesDecode := by
  intro s hst hpos op hop hmask
  subst hop
  have hc : cursorRoutine (s.buf.read s.pos) (s.advance 1)
      = some (cursorAccMem (s.buf.read s.pos) (s.advance 1)) := by
    rw [cursorRoutine, classify_accMem_of_mask _ hmask]
  constructor
  · intro h
    refine ⟨joinLE (s.buf.read (s.pos + 1)) (s.buf.read (s.pos + 2)), joinLE_toNat _ _, ?_⟩
    rw [cursorAccMem, readU16LE_of_fits (s := s.advance 1) h, ReadResult.bind_ok, mkRecord_orderAccMem] at hc
    exact step_of_cursor_ok hst hpos hc
  · intro h
    rw [cursorAccMem, readU16LE_of_short (s := s.advance 1) (Nat.lt_succ_of_le h), ReadResult.bind_exhausted] at hc
    exact step_of_cursor_exhausted hst hpos hc

/-! ### Class `IMM_REG` -/

/-- Settles O40: the routine's one read is the immediate, a byte or a word. -/
theorem immRegBytesDecode : Obligations.ImmRegBytesDecode := by
  intro s hst hpos op hop hmask
  subst hop
  have hc : cursorRoutine (s.buf.read s.pos) (s.advance 1)
      = some (cursorImmReg (s.buf.read s.pos) (s.advance 1)) := by
    rw [cursorRoutine, classify_immReg_of_mask _ hmask]
  refine ⟨fun hbit => ?byte, fun hbit => ?word⟩
  case byte =>
    have hw : immRegWidth (s.buf.read s.pos) = .byte := by rw [immRegWidth, hbit]; rfl
    rw [cursorImmReg, hw, readImm] at hc
    constructor
    · intro h
      rw [readU8_of_fits (s := s.advance 1) h] at hc
      exact ⟨_, zext16_toNat _, step_of_cursor_ok hst hpos hc⟩
    · intro h
      rw [readU8_of_short (s := s.advance 1) h.ge] at hc
      exact step_of_cursor_exhausted hst hpos hc
  case word =>
    have hw : immRegWidth (s.buf.read s.pos) = .word := by rw [immRegWidth, hbit]; rfl
    rw [cursorImmReg, hw, readImm] at hc
    constructor
    · intro h
      rw [readU16LE_of_fits (s := s.advance 1) h] at hc
      exact ⟨_, joinLE_toNat _ _, step_of_cursor_ok hst hpos hc⟩
    · intro h
      rw [readU16LE_of_short (s := s.advance 1) (Nat.lt_succ_of_le h)] at hc
      exact step_of_cursor_exhausted hst hpos hc

/-! ### Class `RM_REG` -/

theorem mkRecord_orderRmReg (d : Bool) (reg rm : Operand) (hint : SizeHint) :
    mkRecord (orderRmReg d reg rm) hint = if d then ⟨.mov, reg, rm, hint⟩ else ⟨.mov, rm, reg, hint⟩ := by
  cases d <;> rfl

section
variable {s : State} (hpos : s.pos + 1 < s.n) (op : Byte)
include hpos

/-- After the ModRM byte the routine resolves its `mod` and `rm` fields (R89). -/
theorem cursorRmReg_eq : cursorRmReg op (s.advance 1) =
    (resolve (modField (s.buf.read (s.pos + 1))) (rmField (s.buf.read (s.pos + 1))) (opWidth op)
      (s.advance 2)).bind fun rmop t =>
        .ok (mkRecord (orderRmReg (opDir op) (.reg ⟨opWidth op, regField (s.buf.read (s.pos + 1))⟩) rmop) .none)
          t := by
  rw [cursorRmReg, readU8_of_fits (s := s.advance 1) hpos]
  rfl

/-- After the ModRM byte the routine resolves its `mod` and `rm` fields, then reads the immediate (R92). -/
theorem cursorImmMem_eq : cursorImmMem op (s.advance 1) =
    (resolve (modField (s.buf.read (s.pos + 1))) (rmField (s.buf.read (s.pos + 1))) (opWidth op)
      (s.advance 2)).bind fun dst t =>
        (readImm (opWidth op) t).bind fun v t =>
          .ok (mkRecord (dst, .imm v (opWidth op)) (hintOf (opWidth op))) t := by
  rw [cursorImmMem, readU8_of_fits (s := s.advance 1) hpos]
  rfl

end

/-- Settles O39: the ModRM byte, then what the resolver answers. -/
theorem regMemBytesDecode : Obligations.RegMemBytesDecode := by
  intro s hst hpos op hop hmask
  subst hop
  have hc : cursorRoutine (s.buf.read s.pos) (s.advance 1)
      = some (cursorRmReg (s.buf.read s.pos) (s.advance 1)) := by
    rw [cursorRoutine, classify_rmReg_of_mask _ hmask]
  constructor
  · intro h
    rw [cursorRmReg, readU8_of_short (s := s.advance 1) h.ge] at hc
    exact step_of_cursor_exhausted hst hpos hc
  · rintro h m w rfl rfl
    rw [cursorRmReg_eq h] at hc
    refine ⟨fun o t hres => ?_, fun t hres => ?_⟩
    · have hok := hc.trans (congrArg (fun r => some (ReadResult.bind r _)) hres)
      rw [ReadResult.bind_ok, mkRecord_orderRmReg] at hok
      exact step_of_cursor_ok hst hpos hok
    · obtain rfl := resolve_exhausted (s := s.advance 2) h hres
      exact step_of_cursor_exhausted hst hpos (hc.trans (congrArg (fun r => some (ReadResult.bind r _)) hres))

/-! ### Class `IMM_MEM` -/

/-- Settles O41: the ModRM byte, what the resolver answers, then the immediate, a byte or a word. -/
theorem immMemBytesDecode : Obligations.ImmMemBytesDecode := by
  intro s hst hpos op hop hmask
  subst hop
  have hc : cursorRoutine (s.buf.read s.pos) (s.advance 1)
      = some (cursorImmMem (s.buf.read s.pos) (s.advance 1)) := by
    rw [cursorRoutine, classify_immMem_of_mask _ hmask]
  constructor
  · intro h
    rw [cursorImmMem, readU8_of_short (s := s.advance 1) h.ge] at hc
    exact step_of_cursor_exhausted hst hpos hc
  · rintro h m w rfl hw
    have hw : opWidth (s.buf.read s.pos) = w := hw.symm
    rw [cursorImmMem_eq h, hw] at hc
    refine ⟨fun o t hres => ?_, fun t hres => ?_⟩
    · obtain rfl := (resolve_ok (s := s.advance 2) h hres).trans (State.advance_advance s 2 _)
      have hok := hc.trans (congrArg (fun r => some (ReadResult.bind r _)) hres)
      rw [ReadResult.bind_ok] at hok
      refine ⟨?_, ?_, ?_, ?_⟩
      · rintro rfl hfits
        rw [readImm, readU8_of_fits hfits] at hok
        exact ⟨_, zext16_toNat _, step_of_cursor_ok hst hpos hok⟩
      · rintro rfl hend
        rw [readImm, readU8_of_short hend.ge] at hok
        exact step_of_cursor_exhausted hst hpos hok
      · rintro rfl hfits
        rw [readImm, readU16LE_of_fits hfits] at hok
        exact ⟨_, joinLE_toNat _ _, step_of_cursor_ok hst hpos hok⟩
      · rintro rfl hshort
        rw [readImm, readU16LE_of_short (Nat.lt_succ_of_le hshort)] at hok
        exact step_of_cursor_exhausted hst hpos hok
    · obtain rfl := resolve_exhausted (s := s.advance 2) h hres
      exact step_of_cursor_exhausted hst hpos (hc.trans (congrArg (fun r => some (ReadResult.bind r _)) hres))

end Sys2Proof.Machine
end

section
/-! The host's side (R13, R15, R28, R126, R130, R134, R135): the codes of the status registers, placing a buffer,
refusals, and several blocks. -/

namespace Sys2Proof.Machine

/-- A code of `STATUS` is read back (R13). -/
@[simp] theorem Status.ofCode_code (x : Status) : Status.ofCode x.code = some x := by
  cases x <;> rfl

/-- A code of `ERR_KIND` is read back (R14). -/
@[simp] theorem ErrKind.ofCode_code (x : ErrKind) : ErrKind.ofCode x.code = some x := by
  cases x <;> rfl

/-- Settles O10: the codes as listed, and each read back. -/
theorem statusAndErrorCodes : Obligations.StatusAndErrorCodes :=
  ⟨⟨rfl, rfl, rfl⟩, ⟨rfl, rfl, rfl⟩, Status.ofCode_code, ErrKind.ofCode_code, rfl, rfl⟩

/-- A placed buffer's bytes are the ones placed (R28, R130). -/
@[simp] theorem State.place_bytes (s : State) (bs : List Byte) : (s.place bs).bytes = bs := by
  refine List.ext_getElem (bytes_length _) fun k _ hk => ?_
  have hread := Memory.read_writeBytes_inside bs [] 0 k rfl hk
  rw [Nat.zero_add] at hread
  simp [bytes, hread]

/-- Offset `N` and beyond hold nothing (R29). -/
theorem State.byteAt_of_le {s : State} {a : Nat} (h : s.n ≤ a) : s.byteAt a = Option.none :=
  if_neg (Nat.not_lt.2 h)

/-- Settles O55: writing keeps the canonical form, and a byte read back is the byte written. -/
theorem placedBufferReadsBack : Obligations.PlacedBufferReadsBack := fun s bs =>
  ⟨s.place_bytes bs, rfl, s.place_buf_legal bs, fun _ ha => State.byteAt_of_le ha, rfl, rfl, rfl, rfl, rfl⟩

theorem State.live_iff (s : State) : s.live = true ↔ s.status = .ready := by
  simp [live]

/-- Settles O54: placing goes by whether a pass is live and by the length; the other acts are refused as they
stand. -/
theorem hostMisuseIsRefused : Obligations.HostMisuseIsRefused := by
  refine fun s bs => ⟨fun h => ?_, fun h => ?_, rfl, rfl⟩
  · rw [hostAct, if_pos ((State.live_iff s).2 h)]
  · rw [hostAct, if_neg (mt (State.live_iff s).1 h)]

/-- A request answered by one of several blocks is a step of that block, put in its place (R126). -/
theorem requestTo_next {k : Nat} {blocks after : List State} (h : requestTo k blocks = .next after) :
    ∃ s t, blocks[k]? = some s ∧ step s = .next t ∧ after = blocks.set k t := by
  unfold requestTo at h
  split at h
  · cases h
  next s hs =>
    split at h
    next t ht =>
      cases h
      exact ⟨s, t, hs, ht, rfl⟩
    · cases h
    · cases h

/-- Settles O59: the list is set at `k` alone. -/
theorem requestTouchesOneBlock : Obligations.RequestTouchesOneBlock := by
  intro k blocks after h
  obtain ⟨s, t, hs, ht, rfl⟩ := requestTo_next h
  have hk : k < blocks.length := (List.getElem?_eq_some_iff.1 hs).1
  exact ⟨List.length_set, fun j hj => List.getElem?_set_ne (Ne.symm hj), s, t, hs, ht,
    List.getElem?_set_self hk⟩

end Sys2Proof.Machine
end

section
/-! A pass (R131, R133): each record takes at least two of the bytes left, so the pass ends within its bound. -/

namespace Sys2Proof.Machine

/-- A pass goes on after a record. -/
theorem runPass_of_record {s t : State} {r : Record} (h : step s = .next t) (hr : t.resp = some (.instr r))
    (k : Nat) : runPass (k + 1) s = (.instr r :: (runPass k t).1, (runPass k t).2) := by
  simp [runPass, h, hr]

/-- A pass stops at `End` or `Error`. -/
theorem runPass_of_final {s t : State} {r : Response} (h : step s = .next t) (hr : t.resp = some r)
    (hf : r.final = true) (k : Nat) : runPass (k + 1) s = ([r], t) := by
  cases r with
  | instr r => cases hf
  | ended => simp [runPass, h, hr]
  | error kind offset byte => simp [runPass, h, hr]

/-- A request answers a record and takes two bytes or more, or its response is final (R133). -/
theorem step_record_or_final {s : State} (hp : s.pos ≤ s.n) :
    ∃ t, step s = .next t ∧
      ((∃ r, t.resp = some (.instr r) ∧ t.n = s.n ∧ s.pos + 2 ≤ t.pos ∧ t.pos ≤ t.n) ∨
        ∃ r, t.resp = some r ∧ r.final = true) := by
  obtain ⟨t, h, -⟩ := (stepStopsOnlyPastTheBuffer s).1 hp
  refine ⟨t, h, ?_⟩
  cases stepsTo_of_step h with
  | errorAgain hst => exact .inr ⟨_, rfl, rfl⟩
  | endAgain hst => exact .inr ⟨_, rfl, rfl⟩
  | finish hst hend => exact .inr ⟨_, rfl, rfl⟩
  | record hst hi hw hfits =>
    exact .inl ⟨_, rfl, rfl, Nat.add_le_add_left (Instr.length_bounds hi).1 _, hfits⟩
  | unsupported hst hpos hop => exact .inr ⟨_, rfl, rfl⟩
  | truncated hst hpos hop hlo hle => exact .inr ⟨_, rfl, rfl⟩

/-- With enough requests the responses are records, at most one for two bytes left, and then a final one. -/
theorem runPass_ends (k : Nat) {s : State} (hp : s.pos ≤ s.n)
    (hk : passBound (s.n - s.pos) ≤ k) :
    ∃ (rs : List Response) (r : Response), (runPass k s).1 = rs ++ [r] ∧ r.final = true ∧
      (∀ x ∈ rs, x.final = false) ∧ rs.length ≤ (s.n - s.pos) / 2 := by
  induction k generalizing s with
  | zero => simp [passBound] at hk
  | succ k ih =>
    obtain ⟨t, h, ⟨r, hr, hn, hlo, hhi⟩ | ⟨r, hr, hf⟩⟩ := step_record_or_final hp
    · rw [passBound] at hk
      obtain ⟨rs, r', hrs, hf, hrec, hlen⟩ := ih hhi (by rw [passBound]; omega)
      refine ⟨.instr r :: rs, r', by rw [runPass_of_record h hr, hrs]; rfl, hf, ?_, by simp; omega⟩
      simpa [Response.final] using hrec
    · exact ⟨[], r, by rw [runPass_of_final h hr hf]; rfl, hf, by simp, by simp⟩

/-- One more request than enough adds nothing. -/
theorem runPass_succ (k : Nat) {s : State} (hp : s.pos ≤ s.n)
    (hk : passBound (s.n - s.pos) ≤ k) : runPass (k + 1) s = runPass k s := by
  induction k generalizing s with
  | zero => simp [passBound] at hk
  | succ k ih =>
    obtain ⟨t, h, ⟨r, hr, hn, hlo, hhi⟩ | ⟨r, hr, hf⟩⟩ := step_record_or_final hp
    · rw [passBound] at hk
      rw [runPass_of_record h hr, runPass_of_record h hr, ih hhi (by rw [passBound]; omega)]
    · rw [runPass_of_final h hr hf, runPass_of_final h hr hf]

/-- Settles O50: the two facts about enough requests, the second repeated. -/
theorem passEndsWithinBound : Obligations.PassEndsWithinBound := by
  refine fun s _ hp => ⟨runPass_ends _ hp (le_refl _), fun k hk => ?_⟩
  induction k, hk using Nat.le_induction with
  | base => rfl
  | succ k hk ih => exact (runPass_succ k hp hk).trans ih

end Sys2Proof.Machine
end

section
/-! What a pass answers (R131): the bytes left at the cursor, the step by what they decode to, and the pass over
encodings one after another. -/

namespace Sys2Proof

/-- Instructions take at least two bytes each (R43). -/
theorem two_mul_length_le_flatMap {is : List Instr} (h : ∀ i ∈ is, i.wf = true) :
    2 * is.length ≤ (is.flatMap encode).length := by
  induction is with
  | nil => simp
  | cons i is ih =>
    obtain ⟨hi, his⟩ := List.forall_mem_cons.1 h
    have hlo := (Instr.length_bounds hi).1
    have hrest := ih his
    simp only [List.flatMap_cons, List.length_append, List.length_cons, encode_length i hi]
    omega

/-- Any list is encodings one after another and a rest with no instruction in front. -/
theorem exists_flatMap_encode (bs : List Byte) :
    ∃ (is : List Instr) (rest : List Byte), (∀ i ∈ is, i.wf = true) ∧ bs = is.flatMap encode ++ rest ∧
      ∀ i rest', decode rest ≠ .instr i rest' := by
  by_cases h : ∃ i rest, decode bs = .instr i rest
  · obtain ⟨i, rest, hd⟩ := h
    obtain ⟨hi, hbs⟩ := decode_instr hd
    have hshorter : rest.length < bs.length := by
      simp [hbs, encode]
    obtain ⟨is, rest', his, hrest, hnone⟩ := exists_flatMap_encode rest
    exact ⟨i :: is, rest', List.forall_mem_cons.2 ⟨hi, his⟩, by simp [hbs, hrest], hnone⟩
  · exact ⟨[], bs, by simp, rfl, fun i rest' hd => h ⟨i, rest', hd⟩⟩
termination_by bs.length

end Sys2Proof

namespace Sys2Proof.Machine

open Claims

/-- The bytes from the cursor to the end of the buffer. -/
def State.left (s : State) : List Byte := s.upTo (s.n - s.pos)

@[simp] theorem State.left_length (s : State) : s.left.length = s.n - s.pos := by
  simp [left, upTo]

theorem State.window_eq_take_left (s : State) : s.window = s.left.take maxLength := by
  simp [window, left, upTo, ← List.map_take, List.take_range]

theorem State.left_advance (s : State) (k : Nat) : (s.advance k).left = s.left.drop k := by
  refine List.ext_getElem (by simp; omega) fun j hj hj' => ?_
  simp [left, upTo, Nat.add_assoc]

/-- The first byte left is the one at the cursor. -/
theorem State.read_of_left_head? {s : State} {b : Byte} (h : s.left.head? = some b) :
    s.pos < s.n ∧ s.buf.read s.pos = b := by
  have hpos : s.pos < s.n := by
    by_contra hle
    have hnil : s.left = [] := List.length_eq_zero_iff.1 (by simp; omega)
    simp [hnil] at h
  have hhead := window_head? hpos
  rw [window_eq_take_left, List.head?_take, if_neg (by decide), h] at hhead
  exact ⟨hpos, (Option.some.inj hhead).symm⟩

/-- At the start of a pass all the buffer's bytes are left (R130). -/
@[simp] theorem booted_left (bs : List Byte) : (booted bs).left = bs := by
  have hbytes := State.reset.place_bytes bs
  simp only [State.bytes, booted, State.left, State.upTo] at hbytes ⊢
  simpa using hbytes

section
variable {s : State} (hst : s.status = .ready)
include hst

theorem step_of_left_encode {i : Instr} (hi : i.wf = true) {rest : List Byte} (h : s.left = encode i ++ rest) :
    step s = .next (answered s i.length (recordOf i)) ∧ (answered s i.length (recordOf i)).left = rest := by
  have hlen := congrArg List.length h
  have hbounds := Instr.length_bounds hi
  rw [State.left_length, List.length_append, encode_length i hi] at hlen
  have hw : s.window = encode i ++ rest.take (maxLength - i.length) := by
    rw [State.window_eq_take_left, h, List.take_append, encode_length i hi,
      List.take_of_length_le (by rw [encode_length i hi]; exact hbounds.2)]
  constructor
  · rw [step_of_instr hst (by omega) (hw ▸ decode_encode_append i _ hi), exec_of_fits (by omega)]
  · change (s.advance i.length).left = rest
    rw [State.left_advance, h, ← encode_length i hi, List.drop_left]

theorem step_of_left_unsupported {op : Byte} (h : decode s.left = .unsupported op) :
    ∃ t, step s = .next t ∧ t.resp = some (.error .unsupportedOpcode s.pos op) := by
  obtain ⟨hop, hhead⟩ := decode_unsupported h
  obtain ⟨hpos, rfl⟩ := State.read_of_left_head? hhead
  exact ⟨_, unsupportedOpcodeEntry.1 s hst hpos hop, rfl⟩

theorem step_of_left_truncated {op : Byte} {used : Nat} (h : decode s.left = .truncated op used) :
    ∃ t, step s = .next t ∧ t.resp = some (.error .truncated (reportedOffset s.pos (s.pos + used)) op) := by
  have hpos := (State.read_of_left_head? (decode_truncated_used h).1).1
  have hw : s.window = s.left := by
    rw [State.window_eq_take_left, List.take_of_length_le (length_lt_of_decode_truncated h).le]
  exact ⟨_, step_of_truncated hst hpos (hw ▸ h), rfl⟩

end

/-- A live pass over encodings one after another answers their records in order, and goes on with the rest. -/
theorem runPass_flatMap {is : List Instr} (his : ∀ i ∈ is, i.wf = true) {s : State} (hst : s.status = .ready)
    {rest : List Byte} (h : s.left = is.flatMap encode ++ rest) (k : Nat) :
    ∃ t : State, t.status = .ready ∧ t.left = rest ∧ t.n = s.n ∧
      t.pos = s.pos + (is.flatMap encode).length ∧
      runPass (is.length + k) s =
        (is.map (fun i => Response.instr (recordOf i)) ++ (runPass k t).1, (runPass k t).2) := by
  induction is generalizing s with
  | nil => exact ⟨s, hst, h, rfl, rfl, by simp⟩
  | cons i is ih =>
    obtain ⟨hi, his⟩ := List.forall_mem_cons.1 his
    rw [List.flatMap_cons, List.append_assoc] at h
    obtain ⟨hstep, hleft⟩ := step_of_left_encode hst hi h
    obtain ⟨t, hst', hleft', hn, hpos, hrun⟩ := ih his (s := answered s i.length (recordOf i)) hst hleft
    refine ⟨t, hst', hleft', hn, ?_, ?_⟩
    · rw [hpos, List.flatMap_cons, List.length_append, encode_length i hi, ← Nat.add_assoc]
      rfl
    · rw [List.length_cons, Nat.add_right_comm, runPass_of_record hstep rfl, hrun]
      rfl

/-- The whole pass over encodings and a rest: their records, then what one request or more on the rest answers. -/
theorem passOver_flatMap {is : List Instr} (his : ∀ i ∈ is, i.wf = true) (rest : List Byte) :
    ∃ (t : State) (k : Nat), t.status = .ready ∧ t.left = rest ∧ t.n = (is.flatMap encode ++ rest).length ∧
      t.pos = (is.flatMap encode).length ∧
      passOver (is.flatMap encode ++ rest) =
        (is.map (fun i => Response.instr (recordOf i)) ++ (runPass (k + 1) t).1, (runPass (k + 1) t).2) := by
  have hbound : is.length + 1 ≤ passBound (is.flatMap encode ++ rest).length := by
    have := two_mul_length_le_flatMap his
    rw [passBound, List.length_append]
    omega
  obtain ⟨k, hk⟩ := Nat.exists_eq_add_of_le hbound
  obtain ⟨t, hst, hleft, hn, hpos, hrun⟩ :=
    runPass_flatMap his (s := booted (is.flatMap encode ++ rest)) rfl (booted_left _) (k + 1)
  refine ⟨t, k, hst, hleft, hn, by rw [hpos]; exact Nat.zero_add _, ?_⟩
  rw [passOver, hk, Nat.add_assoc, Nat.add_comm 1 k, hrun]

/-- Settles O52: after the records the rest's one response is the error of its decoding. -/
theorem passReportsFirstFailure : Obligations.PassReportsFirstFailure := by
  rintro is rest his start rfl
  obtain ⟨t, k, hst, hleft, -, hpos, hpass⟩ := passOver_flatMap his rest
  constructor
  · intro op hd
    obtain ⟨u, hstep, hresp⟩ := step_of_left_unsupported hst (hleft ▸ hd)
    rw [hpass, runPass_of_final hstep hresp rfl, hpos]
  · intro op used hd
    obtain ⟨u, hstep, hresp⟩ := step_of_left_truncated hst (hleft ▸ hd)
    rw [hpass, runPass_of_final hstep hresp rfl, hpos]

/-- A pass over encodings alone answers their records, then `End` at the end of the buffer (R131). -/
theorem passOver_encodings {is : List Instr} (his : ∀ i ∈ is, i.wf = true) :
    (passOver (is.flatMap encode)).1 = is.map (fun i => Response.instr (recordOf i)) ++ [.ended] ∧
    (passOver (is.flatMap encode)).2.pos = (is.flatMap encode).length ∧
    (passOver (is.flatMap encode)).2.status = .ended := by
  obtain ⟨t, k, hst, -, hn, hpos, hpass⟩ := passOver_flatMap his []
  rw [List.append_nil] at hn hpass
  have hstep := step_of_pos_eq hst (hpos.trans hn.symm)
  rw [hpass, runPass_of_final hstep rfl rfl]
  exact ⟨rfl, hpos, rfl⟩

/-- A pass that ends with `End` has no byte left that does not decode. -/
theorem exists_encodings_of_passOver_ended {bs : List Byte} (h : (passOver bs).1.getLast? = some .ended) :
    ∃ is : List Instr, (∀ i ∈ is, i.wf = true) ∧ bs = is.flatMap encode := by
  obtain ⟨is, rest, his, rfl, hnone⟩ := exists_flatMap_encode bs
  obtain ⟨hunsupported, htruncated⟩ := passReportsFirstFailure is rest his _ rfl
  cases hd : decode rest with
  | instr i rest' => exact absurd hd (hnone i rest')
  | truncated op used => simp [htruncated op used hd] at h
  | unsupported op => simp [hunsupported op hd] at h
  | noByte => exact ⟨is, his, by simp [(decode_noByte_iff rest).1 hd]⟩

/-- Settles O51. -/
theorem passEndsCleanlyIffBytesSplit : Obligations.PassEndsCleanlyIffBytesSplit := by
  refine fun bs => ⟨⟨exists_encodings_of_passOver_ended, ?_⟩, ?_⟩
  · rintro ⟨is, his, rfl⟩
    simp [(passOver_encodings his).1]
  · rintro is his rfl
    exact passOver_encodings his

end Sys2Proof.Machine
end
